-- ==== Sys2Proof/Word.lean ====
section
/-! DEFINITION. The word types of the LS8 core: bytes, the 9-bit program counter, register indexes (10_state.md R10, R16). -/

namespace Sys2Proof

/-- A register, a memory cell, an operand byte, FL and IR are eight bits (00_scope.md R5, R6). -/
abbrev Byte := BitVec 8

/-- The program counter: nine bits, so that every default advance from an address up to 255 is representable
(10_state.md R16, the spec's decision D1). -/
abbrev PcWord := BitVec 9

/-- An index of the register file, 0 to 7 (10_state.md R10). -/
abbrev RegIndex := Fin 8

end Sys2Proof
end

