-- ==== Sys2Proof/Syntax.lean ====
section
/-! DEFINITION. The instructions as syntax: one constructor of `Instr` per row of the opcode table (30_encoding.md R52). -/

namespace Sys2Proof

/-- The 29 mnemonics of the dispatcher's table (40_instruction_cycle.md R73), in the order of 30_encoding.md R52. -/
inductive Mnemonic where
  | hlt | ldi | prn | pra | push | pop | call | ret
  | jmp | jeq | jne | jgt | jlt | jle | jge
  | cmp | add | sub | mul | div | mod | inc | dec
  | and | not | or | xor | shl | shr
  deriving DecidableEq, Repr

/-- The four instruction formats (30_encoding.md R45). -/
inductive Format where
  /-- Opcode only, 1 byte. -/
  | op0
  /-- Opcode and one register index, 2 bytes. -/
  | op1r
  /-- Opcode and two register indexes, 3 bytes. -/
  | op2rr
  /-- Opcode, one register index and one immediate, 3 bytes. -/
  | op2ri
  deriving DecidableEq, Repr

/-- An instruction with its operand bytes. `a` and `b` are the first and second operand byte used as a register index:
the WHOLE byte, since a value of 8 to 255 is not masked but faults when the instruction runs (30_encoding.md R49). -/
inductive Instr where
  | hlt
  | ldi (a imm : Byte)
  | prn (a : Byte)
  | pra (a : Byte)
  | push (a : Byte)
  | pop (a : Byte)
  | call (a : Byte)
  | ret
  | jmp (a : Byte)
  | jeq (a : Byte)
  | jne (a : Byte)
  | jgt (a : Byte)
  | jlt (a : Byte)
  | jle (a : Byte)
  | jge (a : Byte)
  | cmp (a b : Byte)
  | add (a b : Byte)
  | sub (a b : Byte)
  | mul (a b : Byte)
  | div (a b : Byte)
  | mod (a b : Byte)
  | inc (a : Byte)
  | dec (a : Byte)
  | and (a b : Byte)
  | not (a : Byte)
  | or (a b : Byte)
  | xor (a b : Byte)
  | shl (a b : Byte)
  | shr (a b : Byte)
  deriving DecidableEq, Repr

/-- The mnemonic of an instruction. -/
def Instr.mnemonic : Instr → Mnemonic
  | .hlt => .hlt
  | .ldi _ _ => .ldi
  | .prn _ => .prn
  | .pra _ => .pra
  | .push _ => .push
  | .pop _ => .pop
  | .call _ => .call
  | .ret => .ret
  | .jmp _ => .jmp
  | .jeq _ => .jeq
  | .jne _ => .jne
  | .jgt _ => .jgt
  | .jlt _ => .jlt
  | .jle _ => .jle
  | .jge _ => .jge
  | .cmp _ _ => .cmp
  | .add _ _ => .add
  | .sub _ _ => .sub
  | .mul _ _ => .mul
  | .div _ _ => .div
  | .mod _ _ => .mod
  | .inc _ => .inc
  | .dec _ => .dec
  | .and _ _ => .and
  | .not _ => .not
  | .or _ _ => .or
  | .xor _ _ => .xor
  | .shl _ _ => .shl
  | .shr _ _ => .shr

/-- The operand bytes in address order (20_memory.md R34). -/
def Instr.operands : Instr → List Byte
  | .hlt | .ret => []
  | .ldi a imm => [a, imm]
  | .prn a | .pra a | .push a | .pop a | .call a => [a]
  | .jmp a | .jeq a | .jne a | .jgt a | .jlt a | .jle a | .jge a => [a]
  | .inc a | .dec a | .not a => [a]
  | .cmp a b | .add a b | .sub a b | .mul a b | .div a b | .mod a b => [a, b]
  | .and a b | .or a b | .xor a b | .shl a b | .shr a b => [a, b]

/-- The operand bytes that the format uses as register indexes, first operand first
(40_instruction_cycle.md R65: OP2RI checks its first operand only, OP0 none). -/
def Instr.registerOperands : Instr → List Byte
  | .hlt | .ret => []
  | .ldi a _ => [a]
  | .prn a | .pra a | .push a | .pop a | .call a => [a]
  | .jmp a | .jeq a | .jne a | .jgt a | .jlt a | .jle a | .jge a => [a]
  | .inc a | .dec a | .not a => [a]
  | .cmp a b | .add a b | .sub a b | .mul a b | .div a b | .mod a b => [a, b]
  | .and a b | .or a b | .xor a b | .shl a b | .shr a b => [a, b]

end Sys2Proof
end

