-- ==== Sys2Proof/Config.lean ====
section
/-! DEFINITION. The parameters of the machine (00_scope.md R5). The one table the source does not state, the opcode
map, is a configuration of type `OpcodeMap`; its value for this hardware is `Config.opcodeMap` in Sys2Proof/Decode.lean. -/

namespace Sys2Proof

/-- OPCODE_MAP: the opcode byte of each mnemonic (00_scope.md R5, the spec's decision D2, log 2). -/
abbrev OpcodeMap := Mnemonic → Byte

namespace Config

/-- MEM_SIZE: the number of memory cells. -/
def memSize : Nat := 256

/-- LOAD_BASE: where `load` puts the first byte. -/
def loadBase : Nat := 0

/-- SP_INDEX: register 7 is the stack pointer. -/
def spIndex : RegIndex := 7

/-- IM_INDEX: the register named interrupt mask, plain storage (10_state.md R13). -/
def imIndex : RegIndex := 5

/-- IS_INDEX: the register named interrupt status, plain storage (10_state.md R13). -/
def isIndex : RegIndex := 6

/-- SP_INIT: the reset value of register 7. -/
def spInit : Byte := 0xF4

/-- PC_RESET. -/
def pcReset : PcWord := 0

/-- The reset value of every memory cell. DESIGN CHOICE of the spec (D4, log 6). -/
def memReset : Byte := 0

/-- The reset value of R0 to R6, FL and IR. DESIGN CHOICE of the spec (D4, log 5). -/
def zeroReset : Byte := 0

/-- LINE_TERMINATOR after PRN: U+000A. DESIGN CHOICE of the spec (D15, log 17). -/
def lineTerminator : Nat := 0x0A

end Config

end Sys2Proof
end

