-- ==== Sys2Proof/WellFormed.lean ====
section
/-! DEFINITION. Well-formed instructions: every register operand byte is an index 0 to 7 (30_encoding.md R49). -/

namespace Sys2Proof

/-- A register operand byte that names a register. -/
def Byte.isRegIndex (b : Byte) : Bool := decide (b.toNat < 8)

/-- Every register operand of the instruction names a register. An ill-formed instruction still decodes and runs: it
takes the Bounds fault of 60_exceptions.md R118. -/
def Instr.wf (i : Instr) : Bool := i.registerOperands.all Byte.isRegIndex

end Sys2Proof
end

