-- ==== Sys2Proof/Decode.lean ====
section
/-! DEFINITION. The instruction dispatcher's table, the decoder and the encoder (30_encoding.md R45 to R56,
40_instruction_cycle.md R63, R64, R73). Decoding is total on any bytes and rejects by name. -/

namespace Sys2Proof

/-! ### The fields of the opcode byte (30_encoding.md R46) -/

/-- Bits 7:6, the operand count. -/
def Byte.countField (ir : Byte) : BitVec 2 := ir.extractLsb' 6 2

/-- Bit 5: an ALU instruction. -/
def Byte.aluField (ir : Byte) : Bool := ir.getLsbD 5

/-- Bit 4: the instruction sets PC itself. -/
def Byte.setsPcField (ir : Byte) : Bool := ir.getLsbD 4

/-- Bits 3:0, the operation within its category. -/
def Byte.idField (ir : Byte) : BitVec 4 := ir.extractLsb' 0 4

/-! ### What the source says of each mnemonic (30_encoding.md R45, R53) -/

/-- Every mnemonic, in the order of 30_encoding.md R52. -/
def Mnemonic.all : List Mnemonic :=
  [.hlt, .ldi, .prn, .pra, .push, .pop, .call, .ret] ++
  [.jmp, .jeq, .jne, .jgt, .jlt, .jle, .jge] ++
  [.cmp, .add, .sub, .mul, .div, .mod, .inc, .dec] ++
  [.and, .not, .or, .xor, .shl, .shr]

/-- The format of a mnemonic (30_encoding.md R45). -/
def Mnemonic.format : Mnemonic → Format
  | .hlt | .ret => .op0
  | .prn | .pra | .push | .pop | .call => .op1r
  | .jmp | .jeq | .jne | .jgt | .jlt | .jle | .jge => .op1r
  | .inc | .dec | .not => .op1r
  | .cmp | .add | .sub | .mul | .div | .mod | .and | .or | .xor | .shl | .shr => .op2rr
  | .ldi => .op2ri

/-- How many operand bytes a format has (30_encoding.md R45). -/
def Format.operandCount : Format → Nat
  | .op0 => 0
  | .op1r => 1
  | .op2rr | .op2ri => 2

/-- The handlers that control PC themselves: CALL, RET, JMP and the six conditional jumps (R53 (b), C9). -/
def Mnemonic.controlsPc : Mnemonic → Bool
  | .call | .ret | .jmp | .jeq | .jne | .jgt | .jlt | .jle | .jge => true
  | .hlt | .ldi | .prn | .pra | .push | .pop => false
  | .cmp | .add | .sub | .mul | .div | .mod | .inc | .dec => false
  | .and | .not | .or | .xor | .shl | .shr => false

/-- The ALU instructions: the thirteen operations and CMP (R53 (c), C8). -/
def Mnemonic.isAlu : Mnemonic → Bool
  | .cmp | .add | .sub | .mul | .div | .mod | .inc | .dec => true
  | .and | .not | .or | .xor | .shl | .shr => true
  | .hlt | .ldi | .prn | .pra | .push | .pop | .call | .ret => false
  | .jmp | .jeq | .jne | .jgt | .jlt | .jle | .jge => false

/-! ### The opcode map -/

/-- OPCODE_MAP (30_encoding.md R52). Bits 7:4 of each byte follow from the source; bits 3:0 are PRESUMED: the
well-known LS-8 assignment, the spec's decision D2 (log 2). -/
def Config.opcodeMap : OpcodeMap
  | .hlt => 0x01
  | .ldi => 0x82
  | .prn => 0x47
  | .pra => 0x48
  | .push => 0x45
  | .pop => 0x46
  | .call => 0x50
  | .ret => 0x11
  | .jmp => 0x54
  | .jeq => 0x55
  | .jne => 0x56
  | .jgt => 0x57
  | .jlt => 0x58
  | .jle => 0x59
  | .jge => 0x5A
  | .cmp => 0xA7
  | .add => 0xA0
  | .sub => 0xA1
  | .mul => 0xA2
  | .div => 0xA3
  | .mod => 0xA4
  | .inc => 0x65
  | .dec => 0x66
  | .and => 0xA8
  | .not => 0x69
  | .or => 0xAA
  | .xor => 0xAB
  | .shl => 0xAC
  | .shr => 0xAD

/-- What the source requires of any opcode map, whatever the ids: (a) to (e) of 30_encoding.md R53. -/
def OpcodeMap.Valid (m : OpcodeMap) : Prop :=
  (∀ k, (m k).countField.toNat = k.format.operandCount) ∧
  (∀ k, (m k).setsPcField = k.controlsPc) ∧
  (∀ k, (m k).aluField = k.isAlu) ∧
  (∀ k k', m k = m k' → k = k') ∧
  (∀ k k', k ≠ k' → (m k).aluField = (m k').aluField → (m k).setsPcField = (m k').setsPcField →
    (m k).idField ≠ (m k').idField)

/-! ### The dispatcher's table (40_instruction_cycle.md R63, R73) -/

/-- One entry: the handler (named by its mnemonic), the operand count, the controls-PC flag, and for an ALU
instruction the ALU selector. -/
structure DispatchEntry where
  handler : Mnemonic
  operandCount : Nat
  controlsPc : Bool
  selector : Option (BitVec 4)
  deriving DecidableEq, Repr

/-- The entry of a mnemonic under a map. The ALU selector is the id field (R66). -/
def OpcodeMap.entry (m : OpcodeMap) (k : Mnemonic) : DispatchEntry where
  handler := k
  operandCount := k.format.operandCount
  controlsPc := k.controlsPc
  selector := if k.isAlu then some (m k).idField else none

/-- The mnemonic whose opcode byte is `ir`. The key is the whole byte (30_encoding.md R48, C7). -/
def OpcodeMap.mnemonicOf (m : OpcodeMap) (ir : Byte) : Option Mnemonic :=
  Mnemonic.all.find? (fun k => m k == ir)

/-- The dispatch lookup under a map; `none` is an Unsupported opcode. -/
def OpcodeMap.lookup (m : OpcodeMap) (ir : Byte) : Option DispatchEntry :=
  (m.mnemonicOf ir).map m.entry

/-- The dispatch lookup of this hardware. -/
def lookup (ir : Byte) : Option DispatchEntry := Config.opcodeMap.lookup ir

/-! ### Decoding -/

/-- The instruction of a mnemonic with its fetched operand bytes; an operand beyond the count is ignored. -/
def Instr.build (k : Mnemonic) (opa opb : Byte) : Instr :=
  match k with
  | .hlt => .hlt
  | .ldi => .ldi opa opb
  | .prn => .prn opa
  | .pra => .pra opa
  | .push => .push opa
  | .pop => .pop opa
  | .call => .call opa
  | .ret => .ret
  | .jmp => .jmp opa
  | .jeq => .jeq opa
  | .jne => .jne opa
  | .jgt => .jgt opa
  | .jlt => .jlt opa
  | .jle => .jle opa
  | .jge => .jge opa
  | .cmp => .cmp opa opb
  | .add => .add opa opb
  | .sub => .sub opa opb
  | .mul => .mul opa opb
  | .div => .div opa opb
  | .mod => .mod opa opb
  | .inc => .inc opa
  | .dec => .dec opa
  | .and => .and opa opb
  | .not => .not opa
  | .or => .or opa opb
  | .xor => .xor opa opb
  | .shl => .shl opa opb
  | .shr => .shr opa opb

/-- Why bytes do not decode. -/
inductive DecodeError where
  /-- There is no opcode byte. -/
  | noOpcode
  /-- The byte is not one of the 29 (30_encoding.md R54). -/
  | unsupportedOpcode (ir : Byte)
  /-- The bytes end before the operand number `k` (1 or 2) of the opcode `ir`. -/
  | missingOperand (ir : Byte) (k : Nat)
  deriving DecidableEq, Repr

/-- Read `n` operand bytes (0, 1 or 2) from the front of a byte sequence; an operand that is not there reads as 0. -/
def takeOperands (ir : Byte) : Nat → List Byte → Except DecodeError (Byte × Byte × List Byte)
  | 0, rest => .ok (0, 0, rest)
  | 1, opa :: rest => .ok (opa, 0, rest)
  | _ + 2, opa :: opb :: rest => .ok (opa, opb, rest)
  | _ + 1, [] => .error (.missingOperand ir 1)
  | _ + 2, [_] => .error (.missingOperand ir 2)

/-- Decode the first instruction of a byte sequence under an opcode map, and give the bytes after it. The lookup comes
before the operands (C2, D21). -/
def OpcodeMap.decode (m : OpcodeMap) : List Byte → Except DecodeError (Instr × List Byte)
  | [] => .error .noOpcode
  | ir :: rest =>
    match m.lookup ir with
    | none => .error (.unsupportedOpcode ir)
    | some e =>
      match takeOperands ir e.operandCount rest with
      | .error x => .error x
      | .ok (opa, opb, rest') => .ok (Instr.build e.handler opa opb, rest')

/-- This hardware's decoder. -/
def decode (bytes : List Byte) : Except DecodeError (Instr × List Byte) := Config.opcodeMap.decode bytes

/-! ### Encoding -/

/-- The bytes of an instruction under an opcode map: opcode, then the operand bytes (20_memory.md R34). -/
def OpcodeMap.encode (m : OpcodeMap) (i : Instr) : List Byte := m i.mnemonic :: i.operands

/-- This hardware's encoder. -/
def encode (i : Instr) : List Byte := Config.opcodeMap.encode i

/-! ### The opcode table's numbering -/

/-- The longest instruction, in bytes (30_encoding.md R45). -/
def maxInstrBytes : Nat := 3

/-- The bytes of an instruction whose bits are numbered as the opcode table numbers them: bit 0 is the least
significant bit of the first byte, the second byte is bits 15:8, the third bits 23:16; bits at or above `nbits` are 0. -/
def tableWordBytes (nbits w : Nat) : List Byte :=
  (List.range maxInstrBytes).map (fun k => BitVec.ofNat 8 ((w % 2 ^ nbits) / 2 ^ (8 * k)))

/-- The instruction the decoder reads from a table word. -/
def decodeTableWord (nbits w : Nat) : Option Instr :=
  match decode (tableWordBytes nbits w) with
  | .ok (i, _) => some i
  | .error _ => none

end Sys2Proof
end

