-- ==== Sys2Proof/Machine/State.lean ====
section
/-! DEFINITION. The state of the machine as plain data, its reset value, and the names of its stops
(10_state.md R10 to R29, 60_exceptions.md R114). -/

namespace Sys2Proof.Machine

/-- The cause of a machine fault: the reason, the kind and the detail of the fault record in one inductive type
(60_exceptions.md R113, R114). -/
inductive FaultCause where
  /-- Reason 0: the fetched byte has no dispatcher entry (R115). -/
  | unsupportedOpcode (opcode : Byte)
  /-- Reason 1: an ALU selector outside the defined set (R116); unreachable from a run. -/
  | unsupportedAluOperation (selector : BitVec 4)
  /-- Reason 2: DIV or MOD with a zero divisor; the opcode byte of the instruction (R117). -/
  | arithmetic (opcode : Byte)
  /-- Reason 3, kind 0: a memory address outside 0 to 255 (R118). -/
  | boundsMemory (address : Int)
  /-- Reason 3, kind 1: a register index outside 0 to 7 (R118). -/
  | boundsRegister (index : Byte)
  deriving DecidableEq, Repr

/-- The fault record: the address of the opcode byte of the step that faulted, and the cause (R24, R114). -/
structure FaultRecord where
  address : PcWord
  cause : FaultCause
  deriving DecidableEq, Repr

/-- The run state; the fault record exists exactly while it is FAULTED (R23, R24). -/
inductive RunState where
  | running
  | halted
  | faulted (record : FaultRecord)
  deriving DecidableEq, Repr

/-- An event of the output trace: `dec v` from PRN, `chr v` from PRA (R27). -/
inductive OutEvent where
  | dec (v : Byte)
  | chr (v : Byte)
  deriving DecidableEq, Repr

/-- Memory: the cells that differ from the reset value, by strictly rising address. A cell that is not listed reads as
`Config.memReset` (R25, R29, R30). -/
abbrev Memory := List Host.Cell

/-- The whole state of the machine (10_state.md, opening paragraph). -/
structure State where
  /-- R0 to R7; R5 is IM, R6 is IS, R7 is SP (R10, R13, R14). -/
  regs : Vector Byte 8
  /-- The program counter, 0 to 258 (R16, R18). -/
  pc : PcWord
  /-- The flags register: bit 0 E, bit 1 G, bit 2 L (R19). -/
  fl : Byte
  /-- The instruction register (R26). -/
  ir : Byte
  /-- The 256 memory cells (R25). -/
  mem : Memory
  /-- The run state, with the fault record (R23, R24). -/
  run : RunState
  /-- The output trace, oldest event first (R27). -/
  out : List OutEvent
  deriving DecidableEq, Repr

/-- Why the machine has no next step. Both say that the run has ENDED, as `run()` reports it
(40_instruction_cycle.md R71); a machine fault itself is a next state, whose run state is FAULTED (log 1). -/
inductive Fault where
  /-- Raised by `step` in run state HALTED, which has no step (10_state.md R23). Safe: nothing happens there. -/
  | halted
  /-- Raised by `step` in run state FAULTED, which has no step (10_state.md R23), with the fault record. Safe. -/
  | faulted (record : FaultRecord)
  deriving DecidableEq, Repr

/-- What the model gives no meaning. -/
inductive Refusal where
  /-- An instruction with no meaning yet; no arm of `exec` answers so. Safe. -/
  | notModelled (mnemonic : String)
  /-- Raised by `State.load` for an image of more than 256 bytes, which the host interface refuses
  (70_reset_and_hazards.md R136, D17). Safe. -/
  | imageTooLong (length : Nat)
  /-- Raised by `State.load` on a HALTED or FAULTED machine, whose state only the host's `reset` changes
  (10_state.md R23, 70_reset_and_hazards.md R134, log 18). Safe. -/
  | loadIntoStopped
  deriving DecidableEq, Repr

/-- The state after `reset` and at machine construction (10_state.md R29). PC, R7 and RUNNING are stated by the source;
the zeros are the spec's decision D4 (logs 5 and 6) and the empty trace its decision D15 (log 17). -/
def State.reset : State where
  regs := #v[Config.zeroReset, Config.zeroReset, Config.zeroReset, Config.zeroReset,
    Config.zeroReset, Config.zeroReset, Config.zeroReset, Config.spInit]
  pc := Config.pcReset
  fl := Config.zeroReset
  ir := Config.zeroReset
  mem := []
  run := .running
  out := []

end Sys2Proof.Machine
end

