-- ==== Sys2Proof/Machine/Ops.lean ====
section
/-! DEFINITION. The shared operations: memory, register file, program counter, output trace, taking a fault, and the
two primitives of `stack_pointer_logic`. -/

namespace Sys2Proof.Machine

/-- `v & 0xFF` for any integer: reduction modulo 256, for a negative integer too (00_scope.md R6). -/
def mask8 (v : Int) : Byte := BitVec.ofInt 8 v

/-! ### Memory as data -/

/-- The byte of a cell (20_memory.md R30). -/
def Memory.read : Memory → Nat → Byte
  | [], _ => Config.memReset
  | (k, v) :: m, a => if k = a then v else Memory.read m a

/-- Put a cell in front, unless it holds what an unlisted cell reads as. -/
def Memory.consCell (a : Nat) (v : Byte) (m : Memory) : Memory :=
  if v = Config.memReset then m else (a, v) :: m

/-- Set one cell and no other (20_memory.md R31), keeping the canonical form. -/
def Memory.write : Memory → Nat → Byte → Memory
  | [], a, v => Memory.consCell a v []
  | (k, w) :: m, a, v =>
    if a < k then Memory.consCell a v ((k, w) :: m)
    else if a = k then Memory.consCell a v m
    else (k, w) :: Memory.write m a v

/-- The canonical form, from address `lo` up: strictly rising addresses inside memory, no cell listed with the value an
unlisted cell reads as. -/
def Memory.wfFrom (lo : Nat) : Memory → Bool
  | [] => true
  | (k, v) :: m => decide (lo ≤ k) && decide (k < Config.memSize) && decide (v ≠ Config.memReset) &&
      Memory.wfFrom (k + 1) m

/-- The canonical form of memory. -/
def Memory.wf (m : Memory) : Bool := Memory.wfFrom 0 m

/-- Copy bytes to consecutive cells from `a` up (70_reset_and_hazards.md R136). -/
def Memory.writeBytes : Memory → Nat → List Byte → Memory
  | m, _, [] => m
  | m, a, b :: bs => Memory.writeBytes (Memory.write m a b) (a + 1) bs

/-! ### The two memory primitives -/

/-- An address of memory: 0 to 255 (20_memory.md R30). -/
def validAddress : Int → Bool
  | .ofNat n => decide (n < Config.memSize)
  | .negSucc _ => false

/-- `MemRead(a, 1)` (20_memory.md R30). -/
def State.memRead (s : State) (a : Int) : Except FaultCause Byte :=
  if validAddress a then .ok (s.mem.read a.toNat) else .error (.boundsMemory a)

/-- `MemWrite(a, 1, v)` (20_memory.md R31). -/
def State.memWrite (s : State) (a : Int) (v : Byte) : Except FaultCause State :=
  if validAddress a then .ok { s with mem := s.mem.write a.toNat v } else .error (.boundsMemory a)

/-! ### The register file -/

/-- `x[i]` (10_state.md R11). -/
def State.readReg (s : State) (i : RegIndex) : Byte := s.regs[i.val]

/-- `x[i] <- v`: the write port stores `v & 0xFF`, whatever integer `v` is (10_state.md R12). -/
def State.writeReg (s : State) (i : RegIndex) (v : Int) : State :=
  { s with regs := s.regs.set i.val (mask8 v) }

/-- `x[7]`, the stack pointer (10_state.md R14). -/
def State.sp (s : State) : Byte := s.readReg Config.spIndex

/-- `x[7] <- v`. -/
def State.setSp (s : State) (v : Int) : State := s.writeReg Config.spIndex v

/-! ### The program counter -/

/-- The default advance: `pc <- pc0 + 1 + n` as a 9-bit value (40_instruction_cycle.md R67). -/
def State.advance (s : State) (n : Nat) : State := { s with pc := s.pc + BitVec.ofNat 9 (1 + n) }

/-- `pc <- t` for a byte, zero-extended (10_state.md R16). -/
def State.setPc (s : State) (t : Byte) : State := { s with pc := t.setWidth 9 }

/-! ### Output and run state -/

/-- `Emit(e)` (10_state.md R27). -/
def State.emit (s : State) (e : OutEvent) : State := { s with out := s.out ++ [e] }

/-- `run <- HALTED`; PC is not written (40_instruction_cycle.md R68, D9). -/
def State.halt (s : State) : State := { s with run := .halted }

/-- Taking a fault: `run <- FAULTED` and the fault record is written, with the address `pc0` of the step that faulted;
nothing else changes (60_exceptions.md R122, 40_instruction_cycle.md R69). There is no handler, and no return from a
fault but the host's `reset` (R124). -/
def State.raise (s : State) (c : FaultCause) : State := { s with run := .faulted ⟨s.pc, c⟩ }

/-- End an instruction: its new state, or the fault it raised, taken in the state in which the instruction began, so that
no write of a faulting instruction takes effect (00_scope.md R7, `raise`). -/
def State.complete (s : State) : Except FaultCause State → Host.Outcome State Fault Refusal
  | .ok t => .next t
  | .error c => .next (s.raise c)

/-! ### `stack_pointer_logic` -/

/-- The address of a push: `x[7] - 1` as an integer, range-checked before it is masked into the register
(42_stack_call.md R80, C1). -/
def State.pushAddress (s : State) : Except FaultCause Int :=
  let a : Int := (s.sp.toNat : Int) - 1
  if a < 0 then .error (.boundsMemory a) else .ok a

/-- `push(v)` for an expression `v` that is read after `x[7]` was decremented (42_stack_call.md R80, D8). -/
def State.push (s : State) (v : State → Byte) : Except FaultCause State := do
  let a ← s.pushAddress
  let s1 := s.setSp a
  s1.memWrite a (v s1)

/-- `x[7] <- x[7] + 1`, masked by the register write: 255 + 1 gives 0 (42_stack_call.md R81). -/
def State.incSp (s : State) : State := s.setSp ((s.sp.toNat : Int) + 1)

/-- `pop()`: the byte at `x[7]`, and the state with the stack pointer incremented (42_stack_call.md R81). -/
def State.pop (s : State) : Except FaultCause (Byte × State) := do
  let v ← s.memRead s.sp.toNat
  .ok (v, s.incSp)

/-- The address after the instruction's operands, as a byte that can be pushed; 256 and above is a Bounds fault
(42_stack_call.md R83, D13). -/
def State.returnAddress (s : State) (n : Nat) : Except FaultCause Byte :=
  let ret := s.pc.toNat + 1 + n
  if ret > 255 then .error (.boundsMemory ret) else .ok (BitVec.ofNat 8 ret)

end Sys2Proof.Machine
end

