-- ==== Sys2Proof/Machine/Flags.lean ====
section
/-! DEFINITION. The flags register: the outcome of a comparison, its writing into FL, and the conditions of the jumps
(10_state.md R19 to R21, 43_compare_branch.md R88 to R96). -/

namespace Sys2Proof.Machine

/-- The outcome of CMP: exactly one of Equal, Greater-than, Less-than (43_compare_branch.md R88). -/
inductive CompareOutcome where
  | equal
  | greater
  | less
  deriving DecidableEq, Repr

/-- The unsigned comparison of the first operand's register with the second's (R88, direction: D5, log 7). -/
def compareBytes (a b : Byte) : CompareOutcome :=
  if a.toNat = b.toNat then .equal else if a.toNat > b.toNat then .greater else .less

/-- The value FL takes: the flag of the outcome set, all other bits zero (10_state.md R19, R21). -/
def CompareOutcome.flags : CompareOutcome → Byte
  | .equal => 0b00000001
  | .greater => 0b00000010
  | .less => 0b00000100

/-- CMP writes the whole of FL (43_compare_branch.md R88). -/
def State.setFlags (s : State) (o : CompareOutcome) : State := { s with fl := o.flags }

/-- The E flag, FL bit 0. -/
def flagE (fl : Byte) : Bool := fl.getLsbD 0

/-- The G flag, FL bit 1. -/
def flagG (fl : Byte) : Bool := fl.getLsbD 1

/-- The L flag, FL bit 2. -/
def flagL (fl : Byte) : Bool := fl.getLsbD 2

/-- JEQ: E set (R90, D6). -/
def condJeq (fl : Byte) : Bool := flagE fl

/-- JNE: E clear (R91, D6). -/
def condJne (fl : Byte) : Bool := !flagE fl

/-- JGT: G set (R92, D6). -/
def condJgt (fl : Byte) : Bool := flagG fl

/-- JLT: L set (R93, D6). -/
def condJlt (fl : Byte) : Bool := flagL fl

/-- JLE: L or E set (R94, stated by the source). -/
def condJle (fl : Byte) : Bool := flagL fl || flagE fl

/-- JGE: G or E set (R95, D6). -/
def condJge (fl : Byte) : Bool := flagG fl || flagE fl

end Sys2Proof.Machine
end

