-- ==== Sys2Proof/Machine/Operands.lean ====
section
/-! DEFINITION. The operand forms: a register operand byte and the register file's two ports
(30_encoding.md R49 to R51, 10_state.md R11, R12). -/

namespace Sys2Proof.Machine

/-- `CheckReg(i)`: the whole operand byte is the index; above 7 it is a Bounds fault with that index (00_scope.md R7,
30_encoding.md R49). -/
def checkReg (b : Byte) : Except FaultCause RegIndex :=
  if h : b.toNat < 8 then .ok ⟨b.toNat, h⟩ else .error (.boundsRegister b)

/-- The register file's `read(index)` for any index byte (10_state.md R11). -/
def State.regRead (s : State) (index : Byte) : Except FaultCause Byte := do
  let i ← checkReg index
  .ok (s.readReg i)

/-- The register file's `write(index, value)` for any index byte and any integer (10_state.md R12). -/
def State.regWrite (s : State) (index : Byte) (v : Int) : Except FaultCause State := do
  let i ← checkReg index
  .ok (s.writeReg i v)

end Sys2Proof.Machine
end

