-- ==== Sys2Proof/Machine/Alu.lean ====
section
/-! DEFINITION. The ALU (`alu_8bit`): the pure function `apply(op, a, b)`, and the shape the ALU instructions share
(44_alu.md R97 to R99). -/

namespace Sys2Proof.Machine

/-- The fourteen defined ALU operations (44_alu.md R97). -/
inductive AluOp where
  | add | sub | mul | div | mod | inc | dec | cmp
  | and | not | or | xor | shl | shr
  deriving DecidableEq, Repr

/-- Every defined operation. -/
def AluOp.all : List AluOp :=
  [.add, .sub, .mul, .div, .mod, .inc, .dec, .cmp] ++ [.and, .not, .or, .xor, .shl, .shr]

/-- The mnemonic of an operation. -/
def AluOp.mnemonic : AluOp → Mnemonic
  | .add => .add
  | .sub => .sub
  | .mul => .mul
  | .div => .div
  | .mod => .mod
  | .inc => .inc
  | .dec => .dec
  | .cmp => .cmp
  | .and => .and
  | .not => .not
  | .or => .or
  | .xor => .xor
  | .shl => .shl
  | .shr => .shr

/-- The ALU selector of an operation: the id field of its opcode byte (40_instruction_cycle.md R66). -/
def AluOp.selector (op : AluOp) : BitVec 4 := (Config.opcodeMap op.mnemonic).idField

/-- The operation a selector names; `none` for a selector outside the defined set (44_alu.md R97, R116). -/
def aluOpOfSelector (sel : BitVec 4) : Option AluOp :=
  AluOp.all.find? (fun op => op.selector == sel)

/-- What the ALU gives back: a byte, or for CMP the compare outcome. -/
inductive AluOut where
  | result (r : Byte)
  | compare (o : CompareOutcome)
  deriving DecidableEq, Repr

/-- The exact integer an operation computes from two unsigned bytes, before the mask (44_alu.md R97, R99). CMP has no
result; DIV and MOD are only asked for a divisor that is not 0. -/
def AluOp.exact (op : AluOp) (a b : Nat) : Int :=
  match op with
  | .add => (a : Int) + b
  | .sub => (a : Int) - b
  | .mul => (a : Int) * b
  | .div => ((a / b : Nat) : Int)
  | .mod => ((a % b : Nat) : Int)
  | .inc => (a : Int) + 1
  | .dec => (a : Int) - 1
  | .cmp => 0
  | .and => ((a &&& b : Nat) : Int)
  | .not => ~~~(a : Int)
  | .or => ((a ||| b : Nat) : Int)
  | .xor => ((a ^^^ b : Nat) : Int)
  | .shl => ((a * 2 ^ b : Nat) : Int)
  | .shr => ((a / 2 ^ b : Nat) : Int)

/-- One defined operation on two bytes: the result masked to 8 bits, the compare outcome, or the Arithmetic fault of DIV
and MOD by 0 with the opcode byte as its detail (44_alu.md R97, R103, R104, 60_exceptions.md R117). -/
def AluOp.run (op : AluOp) (a b : Byte) : Except FaultCause AluOut :=
  match op with
  | .cmp => .ok (.compare (compareBytes a b))
  | .div =>
    if b = 0 then .error (.arithmetic (Config.opcodeMap .div)) else .ok (.result (mask8 (AluOp.exact .div a.toNat b.toNat)))
  | .mod =>
    if b = 0 then .error (.arithmetic (Config.opcodeMap .mod)) else .ok (.result (mask8 (AluOp.exact .mod a.toNat b.toNat)))
  | op => .ok (.result (mask8 (op.exact a.toNat b.toNat)))

/-- `apply(op, a, b)`: an unknown selector is the Unsupported ALU operation fault (44_alu.md R97, R116). -/
def aluApply (sel : BitVec 4) (a b : Byte) : Except FaultCause AluOut :=
  match aluOpOfSelector sel with
  | some op => op.run a b
  | none => .error (.unsupportedAluOperation sel)

/-- Write back what the ALU gave: a result into the destination register, a compare outcome into FL and no register
(44_alu.md R98, 43_compare_branch.md R88). -/
def State.writeBack (s : State) (i : RegIndex) : AluOut → State
  | .result r => s.writeReg i r.toNat
  | .compare o => s.setFlags o

/-- The two-operand form: both indexes checked, both registers read before the write, `apply`, write back, default
advance (44_alu.md R98). -/
def aluBinary (op : AluOp) (a b : Byte) (s : State) : Host.Outcome State Fault Refusal :=
  s.complete (do
    let i ← checkReg a
    let j ← checkReg b
    let r ← aluApply op.selector (s.readReg i) (s.readReg j)
    .ok ((s.writeBack i r).advance 2))

/-- The one-operand form, "unary ALU applied in place"; the second ALU input is unused (44_alu.md R97, R98). -/
def aluUnary (op : AluOp) (a : Byte) (s : State) : Host.Outcome State Fault Refusal :=
  s.complete (do
    let i ← checkReg a
    let r ← aluApply op.selector (s.readReg i) 0
    .ok ((s.writeBack i r).advance 1))

end Sys2Proof.Machine
end

