-- ==== Sys2Proof/Machine/AluInstrs.lean ====
section
/-! DEFINITION. The thirteen ALU instructions that write a register (44_alu.md R100 to R112). -/

namespace Sys2Proof.Machine

/-- ADD, R100. -/
def execAdd (a b : Byte) (s : State) : Host.Outcome State Fault Refusal := aluBinary .add a b s

/-- SUB, R101. -/
def execSub (a b : Byte) (s : State) : Host.Outcome State Fault Refusal := aluBinary .sub a b s

/-- MUL, R102. -/
def execMul (a b : Byte) (s : State) : Host.Outcome State Fault Refusal := aluBinary .mul a b s

/-- DIV, R103. -/
def execDiv (a b : Byte) (s : State) : Host.Outcome State Fault Refusal := aluBinary .div a b s

/-- MOD, R104. -/
def execMod (a b : Byte) (s : State) : Host.Outcome State Fault Refusal := aluBinary .mod a b s

/-- INC, R105. -/
def execInc (a : Byte) (s : State) : Host.Outcome State Fault Refusal := aluUnary .inc a s

/-- DEC, R106. -/
def execDec (a : Byte) (s : State) : Host.Outcome State Fault Refusal := aluUnary .dec a s

/-- AND, R107. -/
def execAnd (a b : Byte) (s : State) : Host.Outcome State Fault Refusal := aluBinary .and a b s

/-- NOT, R108. -/
def execNot (a : Byte) (s : State) : Host.Outcome State Fault Refusal := aluUnary .not a s

/-- OR, R109. -/
def execOr (a b : Byte) (s : State) : Host.Outcome State Fault Refusal := aluBinary .or a b s

/-- XOR, R110. -/
def execXor (a b : Byte) (s : State) : Host.Outcome State Fault Refusal := aluBinary .xor a b s

/-- SHL, R111: the count is the whole byte (D7, log 9). -/
def execShl (a b : Byte) (s : State) : Host.Outcome State Fault Refusal := aluBinary .shl a b s

/-- SHR, R112: logical, the count is the whole byte (D7, log 9). -/
def execShr (a b : Byte) (s : State) : Host.Outcome State Fault Refusal := aluBinary .shr a b s

end Sys2Proof.Machine
end

