-- ==== Sys2Proof/Machine/Branch.lean ====
section
/-! DEFINITION. CMP, JMP and the conditional jumps (43_compare_branch.md R87 to R96). -/

namespace Sys2Proof.Machine

/-- CMP: through the ALU, FL written and no register (R88). -/
def execCmp (a b : Byte) (s : State) : Host.Outcome State Fault Refusal := aluBinary .cmp a b s

/-- The shape of the seven jumps: the index is checked whatever the condition; taken to the register's value,
not taken by the default advance (R87, D18). -/
def jumpIf (taken : Bool) (a : Byte) (s : State) : Host.Outcome State Fault Refusal :=
  s.complete (do
    let i ← checkReg a
    .ok (if taken then s.setPc (s.readReg i) else s.advance 1))

/-- JMP, R89: always taken. -/
def execJmp (a : Byte) (s : State) : Host.Outcome State Fault Refusal := jumpIf true a s

/-- JEQ, R90. -/
def execJeq (a : Byte) (s : State) : Host.Outcome State Fault Refusal := jumpIf (condJeq s.fl) a s

/-- JNE, R91. -/
def execJne (a : Byte) (s : State) : Host.Outcome State Fault Refusal := jumpIf (condJne s.fl) a s

/-- JGT, R92. -/
def execJgt (a : Byte) (s : State) : Host.Outcome State Fault Refusal := jumpIf (condJgt s.fl) a s

/-- JLT, R93. -/
def execJlt (a : Byte) (s : State) : Host.Outcome State Fault Refusal := jumpIf (condJlt s.fl) a s

/-- JLE, R94. -/
def execJle (a : Byte) (s : State) : Host.Outcome State Fault Refusal := jumpIf (condJle s.fl) a s

/-- JGE, R95. -/
def execJge (a : Byte) (s : State) : Host.Outcome State Fault Refusal := jumpIf (condJge s.fl) a s

end Sys2Proof.Machine
end

