-- ==== Sys2Proof/Machine/Stack.lean ====
section
/-! DEFINITION. PUSH, POP, CALL, RET (42_stack_call.md R82 to R86). -/

namespace Sys2Proof.Machine

/-- PUSH: the register is read after `x[7]` was decremented (R82, D8). -/
def execPush (a : Byte) (s : State) : Host.Outcome State Fault Refusal :=
  s.complete (do
    let i ← checkReg a
    let s1 ← s.push (fun t => t.readReg i)
    .ok (s1.advance 1))

/-- POP: the register is written first, then `x[7]` is read and incremented (R84, D8). -/
def execPop (a : Byte) (s : State) : Host.Outcome State Fault Refusal :=
  s.complete (do
    let i ← checkReg a
    let v ← s.memRead s.sp.toNat
    .ok ((s.writeReg i v.toNat).incSp.advance 1))

/-- CALL: register index, return address and stack address are checked in that order; the target is read after the push
(R83, D8, D13). -/
def execCall (a : Byte) (s : State) : Host.Outcome State Fault Refusal :=
  s.complete (do
    let i ← checkReg a
    let ret ← s.returnAddress 1
    let s1 ← s.push (fun _ => ret)
    .ok (s1.setPc (s1.readReg i)))

/-- RET: `pc <- pop()` (R85). -/
def execRet (s : State) : Host.Outcome State Fault Refusal :=
  s.complete (do
    let (t, s1) ← s.pop
    .ok (s1.setPc t))

end Sys2Proof.Machine
end

