-- ==== Sys2Proof/Machine/System.lean ====
section
/-! DEFINITION. HLT, LDI, PRN, PRA (41_system_load_output.md R75 to R79). -/

namespace Sys2Proof.Machine

/-- HLT: `run <- HALTED`, nothing else; PC keeps the address of the HLT byte (R75, D9). -/
def execHlt (s : State) : Host.Outcome State Fault Refusal := .next s.halt

/-- LDI: `x[opa] <- opb`, the immediate as an unsigned byte (R76, 30_encoding.md R50). -/
def execLdi (a imm : Byte) (s : State) : Host.Outcome State Fault Refusal :=
  s.complete (do
    let i ← checkReg a
    .ok ((s.writeReg i imm.toNat).advance 2))

/-- The shape of PRN and PRA: one event made from the register's value, then the default advance (R77, R78). -/
def emitReg (event : Byte → OutEvent) (a : Byte) (s : State) : Host.Outcome State Fault Refusal :=
  s.complete (do
    let i ← checkReg a
    .ok ((s.emit (event (s.readReg i))).advance 1))

/-- PRN: `Emit(Dec(x[opa]))` (R77). -/
def execPrn (a : Byte) (s : State) : Host.Outcome State Fault Refusal := emitReg .dec a s

/-- PRA: `Emit(Chr(x[opa]))` (R78). -/
def execPra (a : Byte) (s : State) : Host.Outcome State Fault Refusal := emitReg .chr a s

end Sys2Proof.Machine
end

