-- ==== Sys2Proof/Machine/Fetch.lean ====
section
/-! DEFINITION. Fetch, dispatch lookup and operand fetch (40_instruction_cycle.md R62 to R64). -/

namespace Sys2Proof.Machine

/-- The opcode fetch: a plain memory read at `pc0`; above 255 it is the Bounds fault `pc0` with nothing fetched (R62). -/
def State.fetchOpcode (s : State) : Except FaultCause Byte := s.memRead s.pc.toNat

/-- The operand fetch: exactly `n` bytes, in increasing address order; an operand beyond the count is not read and is
given as 0 (R64, D19). -/
def State.fetchOperands (s : State) : Nat → Except FaultCause (Byte × Byte)
  | 0 => .ok (0, 0)
  | 1 => do
    let opa ← s.memRead (s.pc.toNat + 1)
    .ok (opa, 0)
  | _ + 2 => do
    let opa ← s.memRead (s.pc.toNat + 1)
    let opb ← s.memRead (s.pc.toNat + 2)
    .ok (opa, opb)

/-- The dispatch lookup of the fetched byte, then the operand fetch (R63, R64; lookup first, C2). -/
def State.fetchInstr (s : State) (ir : Byte) : Except FaultCause Instr :=
  match lookup ir with
  | none => .error (.unsupportedOpcode ir)
  | some e => do
    let (opa, opb) ← s.fetchOperands e.operandCount
    .ok (Instr.build e.handler opa opb)

/-- The bytes of memory from address `a` up, at most `n` of them and none beyond the last cell. -/
def State.bytesFrom (s : State) (a n : Nat) : List Byte :=
  ((List.range n).filter (fun k => decide (a + k < Config.memSize))).map (fun k => s.mem.read (a + k))

end Sys2Proof.Machine
end

