-- ==== Sys2Proof/Machine/Cycle.lean ====
section
/-! DEFINITION. One pass of the instruction cycle from run state RUNNING (40_instruction_cycle.md R61). -/

namespace Sys2Proof.Machine

/-- The rest of the pass once the opcode byte `ir` is in IR: look up, fetch the operands, execute; a fault leaves nothing
changed since the fetch (R61, R63, R64, R69). The register-index checks, the PC update and the halt of R61 stand in each
instruction's own meaning. -/
def runFetched (ir : Byte) (s : State) : Host.Outcome State Fault Refusal :=
  match s.fetchInstr ir with
  | .error c => .next (s.raise c)
  | .ok i => exec i s

/-- The whole pass: fetch into IR, then the rest. A fault of the fetch itself leaves IR as it was (R61, R62). -/
def cycle (s : State) : Host.Outcome State Fault Refusal :=
  match s.fetchOpcode with
  | .error c => .next (s.raise c)
  | .ok ir => runFetched ir { s with ir := ir }

/-- Store bytes where the fetch will read them, from `pc` up; a byte that would lie beyond the last cell is dropped. -/
def State.placeAtPc (s : State) (bytes : List Byte) : State :=
  { s with mem := s.mem.writeBytes s.pc.toNat (bytes.take (Config.memSize - s.pc.toNat)) }

end Sys2Proof.Machine
end

