-- ==== Sys2Proof/Machine/Step.lean ====
section
/-! DEFINITION. The step: defined only in run state RUNNING (40_instruction_cycle.md R61, 10_state.md R23). -/

namespace Sys2Proof.Machine

/-- One step. HALTED and FAULTED have no step: there the answer is the final state of the run, by name. -/
def step (s : State) : Host.Outcome State Fault Refusal :=
  match s.run with
  | .running => cycle s
  | .halted => .fault .halted
  | .faulted r => .fault (.faulted r)

/-- `s` with an instruction, given as the opcode table numbers its bits, stored where the next step fetches (log 24). -/
def State.withFetchWord (s : State) (nbits w : Nat) : State := s.placeAtPc (tableWordBytes nbits w)

end Sys2Proof.Machine
end

