-- ==== Sys2Proof/Machine/Output.lean ====
section
/-! DEFINITION. The text the host sees: the renderings of the output events in order (10_state.md R27,
41_system_load_output.md R77, R78; line terminator and characters: the spec's decision D15, log 17). -/

namespace Sys2Proof.Machine

/-- A character of the output, by its code point (R78). -/
abbrev CodePoint := Nat

/-- The decimal digits of a byte, most significant first: no leading zeros, one 0 for zero (R77). -/
def decimalDigits (v : Byte) : List Nat :=
  if v.toNat < 10 then [v.toNat]
  else if v.toNat < 100 then [v.toNat / 10, v.toNat % 10]
  else [v.toNat / 100, v.toNat / 10 % 10, v.toNat % 10]

/-- The decimal numeral of a byte, with no sign and no padding; the digit 0 is U+0030 (R77). -/
def decimalNumeral (v : Byte) : List CodePoint := (decimalDigits v).map (fun d => 0x30 + d)

/-- `Dec(v)` is the numeral and the line terminator, `Chr(v)` the one character of that code point (R77, R78). -/
def OutEvent.render : OutEvent → List CodePoint
  | .dec v => decimalNumeral v ++ [Config.lineTerminator]
  | .chr v => [v.toNat]

/-- The text of the output trace. -/
def State.outputText (s : State) : List CodePoint := s.out.flatMap OutEvent.render

end Sys2Proof.Machine
end

