-- ==== Sys2Proof/Machine/FaultCodes.lean ====
section
/-! DEFINITION. The fields of the fault record as a signal-level build would carry them (60_exceptions.md R114, the
spec's decision D11, log 13), and the final state that `run` returns (40_instruction_cycle.md R71). -/

namespace Sys2Proof.Machine

/-- `reason`, 2 bits. -/
def FaultCause.reasonCode : FaultCause → BitVec 2
  | .unsupportedOpcode _ => 0
  | .unsupportedAluOperation _ => 1
  | .arithmetic _ => 2
  | .boundsMemory _ => 3
  | .boundsRegister _ => 3

/-- `kind`, 1 bit, for a Bounds fault only: 0 a memory address, 1 a register index. -/
def FaultCause.kindCode : FaultCause → Option (BitVec 1)
  | .unsupportedOpcode _ => none
  | .unsupportedAluOperation _ => none
  | .arithmetic _ => none
  | .boundsMemory _ => some 0
  | .boundsRegister _ => some 1

/-- `detail`, an integer. -/
def FaultCause.detail : FaultCause → Int
  | .unsupportedOpcode ir => ir.toNat
  | .unsupportedAluOperation sel => sel.toNat
  | .arithmetic ir => ir.toNat
  | .boundsMemory a => a
  | .boundsRegister i => i.toNat

/-- What `run` returns: `Halted` or `Faulted(reason, address)`. -/
inductive FinalState where
  | halted
  | faulted (reason : FaultCause) (address : PcWord)
  deriving DecidableEq, Repr

/-- The final state of a run that has ended; `none` while it is RUNNING. -/
def State.finalState (s : State) : Option FinalState :=
  match s.run with
  | .running => none
  | .halted => some .halted
  | .faulted r => some (.faulted r.cause r.address)

end Sys2Proof.Machine
end

