-- ==== Sys2Proof/Machine/HostPort.lean ====
section
/-! DEFINITION. The host contract `reset`, `load`, `run` (70_reset_and_hazards.md R130 to R137). -/

namespace Sys2Proof.Machine

/-- `reset()`: from any run state to the reset state, memory cleared too (R130, R131, R135). -/
def State.hostReset (_ : State) : State := State.reset

/-- The effect of `load` on a machine whose run has not ended: the bytes go to consecutive cells from address 0 and
nothing else changes; more than 256 bytes are refused by the host interface (R136, D17, log 18). -/
def State.loadImage (s : State) (bytes : List Byte) : Host.Outcome State Fault Refusal :=
  if bytes.length ≤ Config.memSize then .next { s with mem := s.mem.writeBytes Config.loadBase bytes }
  else .refused (.imageTooLong bytes.length)

/-- `load(bytes)`. After a run has ended only `reset` changes the state (10_state.md R23, R134), so a HALTED or FAULTED
machine refuses the image, whatever it is (log 18). -/
def State.load (s : State) (bytes : List Byte) : Host.Outcome State Fault Refusal :=
  match s.run with
  | .running => s.loadImage bytes
  | .halted => .refused .loadIntoStopped
  | .faulted _ => .refused .loadIntoStopped

/-- One turn of `run`'s loop: a step if the machine is RUNNING, nothing otherwise (R137, D24). -/
def State.runOnce (s : State) : State :=
  match step s with
  | .next t => t
  | .fault _ => s
  | .refused _ => s

/-- `n` turns of the loop (40_instruction_cycle.md R60: an iteration of steps). -/
def State.runFor : Nat → State → State
  | 0, s => s
  | n + 1, s => State.runFor n s.runOnce

/-- `run()` from `s` ends, in `t`. A run that never ends has no `t` (40_instruction_cycle.md R60, R71). -/
def RunsTo (s t : State) : Prop := ∃ n, s.runFor n = t ∧ t.run ≠ .running

end Sys2Proof.Machine
end

