-- ==== Sys2Proof/Safety.lean ====
section
/-! DEFINITION. The terms the statements use: what a state changed (frames), the invariant of the machine, the first
fault of a step by the priority of the spec, and what a safe run is. -/

namespace Sys2Proof.Machine

/-! ### Frames -/

/-- What an instruction may write besides the program counter: registers, memory cells, FL, the run state, the trace. -/
structure Writes where
  regs : List RegIndex := []
  cells : List Nat := []
  fl : Bool := false
  run : Bool := false
  out : Bool := false
  deriving DecidableEq, Repr

/-- From `s` to `t` nothing changed but what `w` lists, and the program counter: every other register, every byte of
memory outside the listed cells, IR, and FL, the run state and the trace unless listed. -/
def Frame (w : Writes) (s t : State) : Prop :=
  (∀ j, j ∉ w.regs → t.readReg j = s.readReg j) ∧
  (∀ a, a ∉ w.cells → t.mem.read a = s.mem.read a) ∧
  t.ir = s.ir ∧
  (w.fl = false → t.fl = s.fl) ∧
  (w.run = false → t.run = s.run) ∧
  (w.out = false → t.out = s.out)

/-! ### The first fault of a step (60_exceptions.md R121) -/

/-- The first register operand byte that names no register (R121, item 4). -/
def badRegister (i : Instr) : Option Byte := i.registerOperands.find? (fun b => !b.isRegIndex)

/-- The value of the register an operand byte names; 0 for a byte that names none. -/
def State.operandValue (s : State) (b : Byte) : Byte :=
  if h : b.toNat < 8 then s.readReg ⟨b.toNat, h⟩ else 0

/-- The fault of a push, if any: the stack pointer is 0 (R118). -/
def State.pushFault (s : State) : Option FaultCause :=
  if s.sp = 0 then some (.boundsMemory (-1)) else none

/-- The instruction's own faults, in the order of its pseudocode (R121, item 5). -/
def State.ownFault (s : State) : Instr → Option FaultCause
  | .div _ b => if s.operandValue b = 0 then some (.arithmetic (Config.opcodeMap .div)) else none
  | .mod _ b => if s.operandValue b = 0 then some (.arithmetic (Config.opcodeMap .mod)) else none
  | .push _ => s.pushFault
  | .call _ => if s.pc.toNat + 2 > 255 then some (.boundsMemory (s.pc.toNat + 2)) else s.pushFault
  | .hlt | .ldi _ _ | .prn _ | .pra _ | .pop _ | .ret => none
  | .jmp _ | .jeq _ | .jne _ | .jgt _ | .jlt _ | .jle _ | .jge _ => none
  | .cmp _ _ | .add _ _ | .sub _ _ | .mul _ _ | .inc _ | .dec _ => none
  | .and _ _ | .not _ | .or _ _ | .xor _ _ | .shl _ _ | .shr _ _ => none

/-- The first fault of an instruction once it is fetched: the register indexes, then its own faults. -/
def State.execFault (s : State) (i : Instr) : Option FaultCause :=
  match badRegister i with
  | some b => some (.boundsRegister b)
  | none => s.ownFault i

/-- The first fault of a whole step in the order of R121, read off the bytes at `pc`. -/
def State.stepFault (s : State) : Option FaultCause :=
  match decode (s.bytesFrom s.pc.toNat maxInstrBytes) with
  | .error .noOpcode => some (.boundsMemory s.pc.toNat)
  | .error (.unsupportedOpcode ir) => some (.unsupportedOpcode ir)
  | .error (.missingOperand _ k) => some (.boundsMemory (s.pc.toNat + k))
  | .ok (i, _) => s.execFault i

/-! ### The invariant -/

/-- A fault cause that a step of this machine can record (60_exceptions.md R114 to R118): no unsupported ALU operation,
and a detail in its range. -/
def FaultCause.Reachable : FaultCause → Prop
  | .unsupportedOpcode ir => lookup ir = none
  | .unsupportedAluOperation _ => False
  | .arithmetic ir => ir = Config.opcodeMap .div ∨ ir = Config.opcodeMap .mod
  | .boundsMemory a => a = -1 ∨ a = 256 ∨ a = 257 ∨ a = 258
  | .boundsRegister i => 8 ≤ i.toNat

/-- The four values FL can hold (10_state.md R21). -/
def legalFlags (fl : Byte) : Prop := fl = 0 ∨ fl = 0b001 ∨ fl = 0b010 ∨ fl = 0b100

/-- What every state of the machine keeps: memory in canonical form, PC in 0 to 258, FL one of its four values, and a
fault record that names the PC it stopped at and a cause a step can raise. -/
def State.Inv (s : State) : Prop :=
  s.mem.wf = true ∧ s.pc.toNat ≤ 258 ∧ legalFlags s.fl ∧
  (∀ r, s.run = .faulted r → r.address = s.pc ∧ r.cause.Reachable)

/-! ### Who writes and who reads what -/

/-- The register an operand byte names, as a list of at most one. -/
def namedReg (b : Byte) : List RegIndex := if h : b.toNat < 8 then [⟨b.toNat, h⟩] else []

/-- The registers an instruction may write: the last column of the table of 10_state.md R15. -/
def writtenRegs : Instr → List RegIndex
  | .hlt | .prn _ | .pra _ => []
  | .ldi a _ => namedReg a
  | .push _ | .call _ | .ret => [Config.spIndex]
  | .pop a => namedReg a ++ [Config.spIndex]
  | .jmp _ | .jeq _ | .jne _ | .jgt _ | .jlt _ | .jle _ | .jge _ | .cmp _ _ => []
  | .add a _ | .sub a _ | .mul a _ | .div a _ | .mod a _ => namedReg a
  | .and a _ | .or a _ | .xor a _ | .shl a _ | .shr a _ => namedReg a
  | .inc a | .dec a | .not a => namedReg a

/-- The six conditional jumps, the only readers of FL (10_state.md R20). -/
def isConditionalJump : Instr → Bool
  | .jeq _ | .jne _ | .jgt _ | .jlt _ | .jle _ | .jge _ => true
  | .hlt | .ldi _ _ | .prn _ | .pra _ | .push _ | .pop _ | .call _ | .ret | .jmp _ => false
  | .cmp _ _ | .add _ _ | .sub _ _ | .mul _ _ | .div _ _ | .mod _ _ | .inc _ | .dec _ => false
  | .and _ _ | .not _ | .or _ _ | .xor _ _ | .shl _ _ | .shr _ _ => false

/-- An operand byte with the register it names renamed; a byte that names none stays. -/
def renameByte (p : Equiv.Perm (Fin 8)) (b : Byte) : Byte :=
  if h : b.toNat < 8 then BitVec.ofNat 8 (p ⟨b.toNat, h⟩).val else b

/-- An instruction with the registers it names renamed. -/
def renameInstr (p : Equiv.Perm (Fin 8)) : Instr → Instr
  | .hlt => .hlt
  | .ldi a imm => .ldi (renameByte p a) imm
  | .prn a => .prn (renameByte p a)
  | .pra a => .pra (renameByte p a)
  | .push a => .push (renameByte p a)
  | .pop a => .pop (renameByte p a)
  | .call a => .call (renameByte p a)
  | .ret => .ret
  | .jmp a => .jmp (renameByte p a)
  | .jeq a => .jeq (renameByte p a)
  | .jne a => .jne (renameByte p a)
  | .jgt a => .jgt (renameByte p a)
  | .jlt a => .jlt (renameByte p a)
  | .jle a => .jle (renameByte p a)
  | .jge a => .jge (renameByte p a)
  | .cmp a b => .cmp (renameByte p a) (renameByte p b)
  | .add a b => .add (renameByte p a) (renameByte p b)
  | .sub a b => .sub (renameByte p a) (renameByte p b)
  | .mul a b => .mul (renameByte p a) (renameByte p b)
  | .div a b => .div (renameByte p a) (renameByte p b)
  | .mod a b => .mod (renameByte p a) (renameByte p b)
  | .inc a => .inc (renameByte p a)
  | .dec a => .dec (renameByte p a)
  | .and a b => .and (renameByte p a) (renameByte p b)
  | .not a => .not (renameByte p a)
  | .or a b => .or (renameByte p a) (renameByte p b)
  | .xor a b => .xor (renameByte p a) (renameByte p b)
  | .shl a b => .shl (renameByte p a) (renameByte p b)
  | .shr a b => .shr (renameByte p a) (renameByte p b)

/-- A state with the contents of the register file moved: register `p j` holds what register `j` held. -/
def State.permuteRegs (s : State) (p : Equiv.Perm (Fin 8)) : State :=
  { s with regs := Vector.ofFn (fun j => s.readReg (p.symm j)) }

/-! ### Safe runs -/

/-- The machine has not faulted: a FAULTED machine is never a good final state (60_exceptions.md R123). -/
def State.NotFaulted (s : State) : Prop := ∀ r, s.run ≠ .faulted r

/-- A run that ends well: it ends, in HALTED (60_exceptions.md R123). -/
def HaltsCleanly (s : State) : Prop := ∃ t, RunsTo s t ∧ t.run = .halted

end Sys2Proof.Machine
end

