-- ==== Sys2Proof/Certificates/Slice0/Obligations.lean ====
section
/-! DEFINITION. The statements for the provers. A marked decision of the spec ("D<n>" of spec/92_eei_decisions.md) that a
statement rests on is named in its docstring with the log entry. -/

open Sys2Proof Sys2Proof.Machine

/-! ### Encoding -/

/-- The opcode map of 30_encoding.md R52 meets the five constraints of R53, which the source puts on any map. The low
four bits of each byte are the spec's decision D2 (log 2). -/
def Obligations.OpcodeMapMeetsItsConstraints : Prop := OpcodeMap.Valid Config.opcodeMap

/-- For EVERY opcode map that meets R53, decoding an encoded instruction gives it back, with every operand at every byte
value, and leaves the bytes after it. -/
def Obligations.DecodeUndoesEncodeForEveryValidMap : Prop :=
  ∀ m : OpcodeMap, m.Valid → ∀ (i : Instr) (rest : List Byte), m.decode (m.encode i ++ rest) = .ok (i, rest)

/-- The other direction, for every map: bytes that decode are the encoding of what they decode to, then the rest; no bit
of an instruction is dropped or ignored. -/
def Obligations.DecodedBytesAreTheEncoding : Prop :=
  ∀ (m : OpcodeMap) (bytes rest : List Byte) (i : Instr), m.decode bytes = .ok (i, rest) → m.encode i ++ rest = bytes

/-- Words written out from the encodings of the spec decode to their instructions: one of each family and format. -/
def Obligations.WordsOfTheSpecDecode : Prop :=
  decode [0b00000001] = .ok (.hlt, []) ∧
  decode [0b10000010, 0b00000101, 0b11111111] = .ok (.ldi 5 255, []) ∧
  decode [0b01001000, 0b00000011] = .ok (.pra 3, []) ∧
  decode [0b01010000, 0b00000001] = .ok (.call 1, []) ∧
  decode [0b00010001] = .ok (.ret, []) ∧
  decode [0b01011010, 0b00000010] = .ok (.jge 2, []) ∧
  decode [0b10100111, 0b00000000, 0b00000001] = .ok (.cmp 0 1, []) ∧
  decode [0b10101101, 0b00000110, 0b00000111] = .ok (.shr 6 7, []) ∧
  decode [0b01101001, 0b00000100] = .ok (.not 4, [])

/-- Every byte that is not one of the 29 of R52 has no dispatcher entry, and each of the 29 has one (R54); the bytes are
the spec's decisions D2 and D3 (logs 2 and 3). -/
def Obligations.OnlyThe29BytesHaveAnEntry : Prop :=
  ∀ ir : Byte, lookup ir ≠ none ↔
    ir.toNat ∈ [0x01, 0x82, 0x47, 0x48, 0x45, 0x46, 0x50, 0x11, 0x54, 0x55, 0x56, 0x57, 0x58, 0x59, 0x5A] ++
      [0xA7, 0xA0, 0xA1, 0xA2, 0xA3, 0xA4, 0x65, 0x66, 0xA8, 0x69, 0xAA, 0xAB, 0xAC, 0xAD]

/-- The length of an instruction is told by its opcode byte alone, whatever its operands are, and the stored operand count
of a supported opcode equals bits 7:6 (30_encoding.md R47). -/
def Obligations.LengthIsToldByTheOpcodeByte : Prop :=
  (∀ (ir : Byte) (rest rest' : List Byte) (i : Instr), decode (ir :: rest) = .ok (i, rest') →
    (ir :: rest).length = rest'.length + (1 + ir.countField.toNat)) ∧
  (∀ (ir : Byte) (e : DispatchEntry), lookup ir = some e → e.operandCount = ir.countField.toNat)

/-- Decode and dispatch (40_instruction_cycle.md R63). The key is the whole byte; an entry's stored operand count and
controls-PC flag equal the bits of the byte; a byte with no entry raises Unsupported opcode with address `pc0` and the
byte as its detail; no step changes the table, which is no part of the state. That the lookup comes before any operand fetch,
at 254 and 255 too, is the spec's decision D21 (log 14), and that the faulting step changes nothing but the run state and IR
its D10 (log 12). -/
def Obligations.DispatchLookup : Prop :=
  (∀ (ir : Byte) (e : DispatchEntry), lookup ir = some e →
    Config.opcodeMap e.handler = ir ∧ e.operandCount = ir.countField.toNat ∧ e.controlsPc = ir.setsPcField ∧
    e.selector = (if ir.aluField then some ir.idField else none)) ∧
  (∀ ir : Byte, lookup ir = none ↔ ∀ k, Config.opcodeMap k ≠ ir) ∧
  (∀ s : State, s.run = .running → s.pc.toNat ≤ 255 → lookup (s.mem.read s.pc.toNat) = none →
    step s = .next { s with ir := s.mem.read s.pc.toNat,
                            run := .faulted ⟨s.pc, .unsupportedOpcode (s.mem.read s.pc.toNat)⟩ })

/-! ### Memory and the register file -/

/-- `MemWrite(a, 1, v)` (20_memory.md R31): inside 0 to 255 it sets cell `a` and changes nothing else; outside it raises
`Bounds(a)` and writes nothing. `MemRead` sees exactly that. The memory is in the canonical form that every state keeps. -/
def Obligations.MemoryWriteSetsOneCell : Prop :=
  ∀ (s : State) (a : Int) (v : Byte), s.mem.wf = true →
    (0 ≤ a ∧ a ≤ 255 → ∃ t, s.memWrite a v = .ok t ∧ t.memRead a = .ok v ∧
      (∀ b : Int, b ≠ a → t.memRead b = s.memRead b) ∧ t = { s with mem := t.mem }) ∧
    (¬ (0 ≤ a ∧ a ≤ 255) → s.memWrite a v = .error (.boundsMemory a) ∧ s.memRead a = .error (.boundsMemory a))

/-- The register file's write port (10_state.md R12): whatever integer `value` is, an index 0 to 7 stores
`value & 0xFF`, its remainder modulo 256, and leaves every other register and all other state alone; an index above 7 is
a Bounds fault with that index and stores nothing. The mask holds for the stack-pointer updates too: 255 + 1 gives 0. -/
def Obligations.RegisterWritesAreMasked : Prop :=
  (∀ (s : State) (index : Byte) (value : Int),
    (∀ h : index.toNat < 8, ∃ t, s.regWrite index value = .ok t ∧
      t.regRead index = .ok (t.readReg ⟨index.toNat, h⟩) ∧
      ((t.readReg ⟨index.toNat, h⟩).toNat : Int) = value % 256 ∧
      (∀ j : RegIndex, j.val ≠ index.toNat → t.readReg j = s.readReg j) ∧ t = { s with regs := t.regs }) ∧
    (8 ≤ index.toNat → s.regWrite index value = .error (.boundsRegister index) ∧
      s.regRead index = .error (.boundsRegister index))) ∧
  (∀ s : State, s.sp = 255 → s.incSp.sp = 0)

/-- Equal memories are equal data: two memories in canonical form that read alike at every address are the same list. -/
def Obligations.CanonicalMemoriesThatReadAlikeAreEqual : Prop :=
  ∀ m m' : Memory, m.wf = true → m'.wf = true → (∀ a, a < 256 → m.read a = m'.read a) → m = m'

/-! ### Halt, load, output -/

/-- HLT halts and changes nothing else; PC keeps the address of the HLT byte (the spec's decision D9, log 11). -/
def Obligations.HltHalts : Prop := ∀ s : State, exec .hlt s = .next { s with run := .halted }

/-- The immediate operand (30_encoding.md R50). LDI puts the number of its immediate byte in its register, whichever
register it is, and changes nothing else but PC; the immediate is its second operand byte, and every operand of every other
instruction is a register operand. -/
def Obligations.LdiLoadsItsImmediate : Prop :=
  (∀ (s : State) (a imm : Byte) (ha : a.toNat < 8), ∃ t, exec (.ldi a imm) s = .next t ∧
    (t.readReg ⟨a.toNat, ha⟩).toNat = imm.toNat ∧ t.pc = s.pc + 3 ∧ Frame { regs := [⟨a.toNat, ha⟩] } s t) ∧
  (∀ a imm : Byte, (Instr.ldi a imm).operands = [a, imm] ∧ (Instr.ldi a imm).registerOperands = [a]) ∧
  (∀ i : Instr, i.mnemonic ≠ .ldi → i.registerOperands = i.operands)

/-- PRN appends `Dec` and PRA `Chr` of the register's value to the trace, and they change nothing else but PC. -/
def Obligations.PrintsAppendOneEvent : Prop :=
  ∀ (s : State) (a : Byte) (ha : a.toNat < 8),
    (∃ t, exec (.prn a) s = .next t ∧ t.out = s.out ++ [.dec (s.readReg ⟨a.toNat, ha⟩)] ∧ t.pc = s.pc + 2 ∧
      Frame { out := true } s t) ∧
    (∃ t, exec (.pra a) s = .next t ∧ t.out = s.out ++ [.chr (s.readReg ⟨a.toNat, ha⟩)] ∧ t.pc = s.pc + 2 ∧
      Frame { out := true } s t)

/-- What PRN and PRA show, in code points: `Dec(v)` is the decimal numeral of `v`, digits U+0030 to U+0039 without leading
zeros, then U+000A (the spec's decision D15, log 17); `Chr(v)` is the one character of code point `v`. -/
def Obligations.OutputEventsRender : Prop :=
  ∀ v : Byte,
    (∃ digits : List Nat, OutEvent.render (.dec v) = digits.map (fun d => 0x30 + d) ++ [0x0A] ∧
      (∀ d ∈ digits, d ≤ 9) ∧ digits.foldl (fun n d => 10 * n + d) 0 = v.toNat ∧ digits ≠ [] ∧
      (digits.head? = some 0 → v.toNat = 0 ∧ digits.length = 1)) ∧
    OutEvent.render (.chr v) = [v.toNat]

/-! ### Stack and calls -/

/-- PUSH with the stack pointer not 0: the cell below the stack pointer receives the register, read after the decrement, so
PUSH R7 stores the decremented pointer (the spec's decision D8, log 10). -/
def Obligations.PushStoresBelowTheStackPointer : Prop :=
  ∀ (s : State) (a : Byte) (ha : a.toNat < 8), s.mem.wf = true → s.sp ≠ 0 → ∃ t, exec (.push a) s = .next t ∧
    t.sp.toNat = s.sp.toNat - 1 ∧
    t.mem.read (s.sp.toNat - 1) = (if a = 7 then s.sp - 1 else s.readReg ⟨a.toNat, ha⟩) ∧
    t.pc = s.pc + 2 ∧ Frame { regs := [Config.spIndex], cells := [s.sp.toNat - 1] } s t

/-- POP reads the cell at the stack pointer into its register and increments the stack pointer modulo 256; POP R7 leaves
the popped byte plus 1 (the spec's decisions D8 and D14, logs 10 and 16). It never faults and stores nothing. -/
def Obligations.PopLoadsFromTheStackPointer : Prop :=
  ∀ (s : State) (a : Byte) (ha : a.toNat < 8), ∃ t, exec (.pop a) s = .next t ∧
    t.sp = (if a = 7 then s.mem.read s.sp.toNat + 1 else s.sp + 1) ∧
    (a ≠ 7 → t.readReg ⟨a.toNat, ha⟩ = s.mem.read s.sp.toNat) ∧
    t.pc = s.pc + 2 ∧ Frame { regs := [⟨a.toNat, ha⟩, Config.spIndex] } s t

/-- CALL pushes the address after its operand and jumps to the register, read after the push (D8, log 10); the conditions
are that the return address fits (D13, log 15) and that the stack pointer is not 0. -/
def Obligations.CallPushesTheReturnAddress : Prop :=
  ∀ (s : State) (a : Byte) (ha : a.toNat < 8), s.mem.wf = true → s.pc.toNat + 2 ≤ 255 → s.sp ≠ 0 →
    ∃ t, exec (.call a) s = .next t ∧
      t.sp.toNat = s.sp.toNat - 1 ∧ (t.mem.read (s.sp.toNat - 1)).toNat = s.pc.toNat + 2 ∧
      t.pc.toNat = (if a = 7 then s.sp.toNat - 1 else (s.readReg ⟨a.toNat, ha⟩).toNat) ∧
      Frame { regs := [Config.spIndex], cells := [s.sp.toNat - 1] } s t

/-- RET takes PC from the cell at the stack pointer and increments the stack pointer modulo 256 (D14, log 16). -/
def Obligations.RetPopsThePc : Prop :=
  ∀ s : State, ∃ t, exec .ret s = .next t ∧
    t.pc.toNat = (s.mem.read s.sp.toNat).toNat ∧ t.sp = s.sp + 1 ∧ Frame { regs := [Config.spIndex] } s t

/-- PUSH then POP moves a register and restores the stack pointer, for registers other than R7 and a push that does not
fault (the first law of 42_stack_call.md R86). -/
def Obligations.PushThenPopMovesARegister : Prop :=
  ∀ (s : State) (a b : Byte) (ha : a.toNat < 7) (hb : b.toNat < 7), s.mem.wf = true → s.sp ≠ 0 →
    ∃ t u, exec (.push a) s = .next t ∧ exec (.pop b) t = .next u ∧
      u.readReg ⟨b.toNat, by omega⟩ = s.readReg ⟨a.toNat, by omega⟩ ∧ u.sp = s.sp ∧ u.pc = s.pc + 4 ∧
      Frame { regs := [⟨b.toNat, by omega⟩], cells := [s.sp.toNat - 1] } s u

/-- CALL, then any states in between, then RET: if the subroutine leaves the stack pointer and the return cell as it found
them, RET goes to the address after the CALL's operand and the stack pointer is restored (the second law of R86). -/
def Obligations.CallThenRetReturns : Prop :=
  ∀ (s : State) (a : Byte), a.toNat < 8 → s.mem.wf = true → s.pc.toNat + 2 ≤ 255 → s.sp ≠ 0 →
    ∃ t, exec (.call a) s = .next t ∧
      ∀ u : State, u.sp = t.sp → u.mem.read t.sp.toNat = t.mem.read t.sp.toNat →
        ∃ v, exec .ret u = .next v ∧ v.pc.toNat = s.pc.toNat + 2 ∧ v.sp = s.sp

/-- The stack faults: PUSH with the stack pointer 0 raises `Bounds(-1)` and writes nothing; CALL whose return address does
not fit raises `Bounds` of it, before the stack address is looked at (D13, D14, logs 15 and 16);
nothing else changes (D10, log 12). -/
def Obligations.StackBoundsFaults : Prop :=
  ∀ (s : State) (a : Byte), a.toNat < 8 →
    (s.sp = 0 → exec (.push a) s = .next { s with run := .faulted ⟨s.pc, .boundsMemory (-1)⟩ }) ∧
    (s.sp = 0 → s.pc.toNat + 2 ≤ 255 → exec (.call a) s = .next { s with run := .faulted ⟨s.pc, .boundsMemory (-1)⟩ }) ∧
    (255 < s.pc.toNat + 2 →
      exec (.call a) s = .next { s with run := .faulted ⟨s.pc, .boundsMemory (s.pc.toNat + 2)⟩ })

/-! ### Compare and jumps -/

/-- CMP writes the whole of FL with exactly one flag: E for equal, G for the first operand's register greater, L for less,
unsigned (direction: the spec's decision D5, log 7); it writes no register. -/
def Obligations.CmpSetsExactlyOneFlag : Prop :=
  ∀ (s : State) (a b : Byte) (ha : a.toNat < 8) (hb : b.toNat < 8), ∃ t, exec (.cmp a b) s = .next t ∧
    (t.fl = 0b001 ↔ (s.readReg ⟨a.toNat, ha⟩).toNat = (s.readReg ⟨b.toNat, hb⟩).toNat) ∧
    (t.fl = 0b010 ↔ (s.readReg ⟨a.toNat, ha⟩).toNat > (s.readReg ⟨b.toNat, hb⟩).toNat) ∧
    (t.fl = 0b100 ↔ (s.readReg ⟨a.toNat, ha⟩).toNat < (s.readReg ⟨b.toNat, hb⟩).toNat) ∧
    t.pc = s.pc + 3 ∧ Frame { fl := true } s t

/-- JMP goes to its register's value and changes nothing else. -/
def Obligations.JmpGoesToItsRegister : Prop :=
  ∀ (s : State) (a : Byte) (ha : a.toNat < 8), ∃ t, exec (.jmp a) s = .next t ∧
    t.pc.toNat = (s.readReg ⟨a.toNat, ha⟩).toNat ∧ Frame {} s t

/-- Each conditional jump goes to its register's value when its condition on FL holds and by the default advance when not,
and changes nothing else. Bit 0 is E, bit 1 G, bit 2 L; conditions other than JLE's are the spec's decision D6 (log 8). -/
def Obligations.ConditionalJumpsFollowTheirFlags : Prop :=
  ∀ (s : State) (a : Byte) (ha : a.toNat < 8) (i : Instr) (taken : Bool),
    (i, taken) ∈ [(Instr.jeq a, s.fl.getLsbD 0), (.jne a, !s.fl.getLsbD 0), (.jgt a, s.fl.getLsbD 1),
      (.jlt a, s.fl.getLsbD 2), (.jle a, s.fl.getLsbD 2 || s.fl.getLsbD 0), (.jge a, s.fl.getLsbD 1 || s.fl.getLsbD 0)] →
    ∃ t, exec i s = .next t ∧
      t.pc = (if taken then (s.readReg ⟨a.toNat, ha⟩).setWidth 9 else s.pc + 2) ∧ Frame {} s t

/-- The outcome of every conditional jump for the four values FL can hold: the table of 43_compare_branch.md R96, columns
JEQ, JNE, JGT, JLT, JLE, JGE (D6, log 8). -/
def Obligations.JumpOutcomeTable : Prop :=
  [(0b000 : Byte), 0b001, 0b010, 0b100].map
    (fun fl => [condJeq fl, condJne fl, condJgt fl, condJlt fl, condJle fl, condJge fl]) =
  [[false, true, false, false, false, false],
   [true, false, false, false, true, true],
   [false, true, true, false, false, true],
   [false, true, false, true, true, false]]

/-- A comparison decides the jumps: after CMP A,B each conditional jump is taken exactly when the unsigned relation its
name says holds between the two registers (directions and conditions: D5, D6, logs 7 and 8). -/
def Obligations.JumpsAfterCmpTestTheRelation : Prop :=
  ∀ (s t : State) (a b : Byte) (ha : a.toNat < 8) (hb : b.toNat < 8), exec (.cmp a b) s = .next t →
    condJeq t.fl = decide ((s.readReg ⟨a.toNat, ha⟩).toNat = (s.readReg ⟨b.toNat, hb⟩).toNat) ∧
    condJne t.fl = decide ((s.readReg ⟨a.toNat, ha⟩).toNat ≠ (s.readReg ⟨b.toNat, hb⟩).toNat) ∧
    condJgt t.fl = decide ((s.readReg ⟨a.toNat, ha⟩).toNat > (s.readReg ⟨b.toNat, hb⟩).toNat) ∧
    condJlt t.fl = decide ((s.readReg ⟨a.toNat, ha⟩).toNat < (s.readReg ⟨b.toNat, hb⟩).toNat) ∧
    condJle t.fl = decide ((s.readReg ⟨a.toNat, ha⟩).toNat ≤ (s.readReg ⟨b.toNat, hb⟩).toNat) ∧
    condJge t.fl = decide ((s.readReg ⟨a.toNat, ha⟩).toNat ≥ (s.readReg ⟨b.toNat, hb⟩).toNat)

/-! ### The ALU -/

/-- ADD, SUB and MUL put the sum, difference and product modulo 256 in the first register and change nothing else but PC;
source and destination may be one register. -/
def Obligations.AddSubMulWrapModulo256 : Prop :=
  ∀ (s : State) (a b : Byte) (ha : a.toNat < 8) (hb : b.toNat < 8) (i : Instr) (r : Int),
    (i, r) ∈ [(Instr.add a b, ((s.readReg ⟨a.toNat, ha⟩).toNat : Int) + (s.readReg ⟨b.toNat, hb⟩).toNat),
      (.sub a b, ((s.readReg ⟨a.toNat, ha⟩).toNat : Int) - (s.readReg ⟨b.toNat, hb⟩).toNat),
      (.mul a b, ((s.readReg ⟨a.toNat, ha⟩).toNat : Int) * (s.readReg ⟨b.toNat, hb⟩).toNat)] →
    ∃ t, exec i s = .next t ∧ ((t.readReg ⟨a.toNat, ha⟩).toNat : Int) = r % 256 ∧
      t.pc = s.pc + 3 ∧ Frame { regs := [⟨a.toNat, ha⟩] } s t

/-- DIV and MOD by a register that is not 0: quotient and remainder of unsigned division (D22, log 23), tied by
`a = b * q + r` with `r < b`, in the first register; nothing else changes but PC. -/
def Obligations.DivModGiveQuotientAndRemainder : Prop :=
  ∀ (s : State) (a b : Byte) (ha : a.toNat < 8) (hb : b.toNat < 8), s.readReg ⟨b.toNat, hb⟩ ≠ 0 →
    ∃ t u, exec (.div a b) s = .next t ∧ exec (.mod a b) s = .next u ∧
      (s.readReg ⟨a.toNat, ha⟩).toNat =
        (s.readReg ⟨b.toNat, hb⟩).toNat * (t.readReg ⟨a.toNat, ha⟩).toNat + (u.readReg ⟨a.toNat, ha⟩).toNat ∧
      (u.readReg ⟨a.toNat, ha⟩).toNat < (s.readReg ⟨b.toNat, hb⟩).toNat ∧
      t.pc = s.pc + 3 ∧ u.pc = s.pc + 3 ∧
      Frame { regs := [⟨a.toNat, ha⟩] } s t ∧ Frame { regs := [⟨a.toNat, ha⟩] } s u

/-- The Arithmetic fault (60_exceptions.md R117): DIV or MOD with a zero divisor always faults, after the register-index
checks, with the address `pc0` and the instruction's opcode byte as detail, and no other instruction raises it. The source
says that no value is returned and no output emitted; that nothing else changes either, PC included, is the spec's decision
D10 (log 12), and the opcode byte as the detail is its D11 (log 13). -/
def Obligations.DivisionByZeroFaults : Prop :=
  (∀ (s : State) (a b : Byte) (_ : a.toNat < 8) (hb : b.toNat < 8), s.readReg ⟨b.toNat, hb⟩ = 0 →
    exec (.div a b) s = .next { s with run := .faulted ⟨s.pc, .arithmetic (Config.opcodeMap .div)⟩ } ∧
    exec (.mod a b) s = .next { s with run := .faulted ⟨s.pc, .arithmetic (Config.opcodeMap .mod)⟩ }) ∧
  (∀ (i : Instr) (s t : State) (address : PcWord) (op : Byte), s.NotFaulted → exec i s = .next t →
    t.run = .faulted ⟨address, .arithmetic op⟩ →
    ∃ (a b : Byte) (hb : b.toNat < 8), (i = .div a b ∨ i = .mod a b) ∧ a.toNat < 8 ∧ s.readReg ⟨b.toNat, hb⟩ = 0 ∧
      address = s.pc ∧ op = Config.opcodeMap i.mnemonic)

/-- AND, OR and XOR work bit by bit into the first register; nothing else changes but PC. -/
def Obligations.BitwiseWorksBitByBit : Prop :=
  ∀ (s : State) (a b : Byte) (ha : a.toNat < 8) (hb : b.toNat < 8) (i : Instr) (f : Bool → Bool → Bool),
    (i, f) ∈ [(Instr.and a b, fun x y => x && y), (.or a b, fun x y => x || y), (.xor a b, fun x y => Bool.xor x y)] →
    ∃ t, exec i s = .next t ∧
      (∀ k, k < 8 → (t.readReg ⟨a.toNat, ha⟩).getLsbD k =
        f ((s.readReg ⟨a.toNat, ha⟩).getLsbD k) ((s.readReg ⟨b.toNat, hb⟩).getLsbD k)) ∧
      t.pc = s.pc + 3 ∧ Frame { regs := [⟨a.toNat, ha⟩] } s t

/-- SHL and SHR take the whole byte as their count (the spec's decision D7, log 9): SHL multiplies by a power of two modulo
256, SHR divides; a count of 8 or more gives 0. Nothing else changes but PC. -/
def Obligations.ShiftsUseTheWholeCount : Prop :=
  ∀ (s : State) (a b : Byte) (ha : a.toNat < 8) (hb : b.toNat < 8),
    ∃ t u, exec (.shl a b) s = .next t ∧ exec (.shr a b) s = .next u ∧
      (t.readReg ⟨a.toNat, ha⟩).toNat =
        ((s.readReg ⟨a.toNat, ha⟩).toNat * 2 ^ (s.readReg ⟨b.toNat, hb⟩).toNat) % 256 ∧
      (u.readReg ⟨a.toNat, ha⟩).toNat = (s.readReg ⟨a.toNat, ha⟩).toNat / 2 ^ (s.readReg ⟨b.toNat, hb⟩).toNat ∧
      (8 ≤ (s.readReg ⟨b.toNat, hb⟩).toNat → t.readReg ⟨a.toNat, ha⟩ = 0 ∧ u.readReg ⟨a.toNat, ha⟩ = 0) ∧
      t.pc = s.pc + 3 ∧ u.pc = s.pc + 3 ∧
      Frame { regs := [⟨a.toNat, ha⟩] } s t ∧ Frame { regs := [⟨a.toNat, ha⟩] } s u

/-- INC, DEC and NOT work in place: plus 1 and minus 1 modulo 256, and 255 minus the value; nothing else changes but PC. -/
def Obligations.UnaryAluWorksInPlace : Prop :=
  ∀ (s : State) (a : Byte) (ha : a.toNat < 8) (i : Instr) (r : Int),
    (i, r) ∈ [(Instr.inc a, ((s.readReg ⟨a.toNat, ha⟩).toNat : Int) + 1),
      (.dec a, ((s.readReg ⟨a.toNat, ha⟩).toNat : Int) - 1),
      (.not a, 255 - ((s.readReg ⟨a.toNat, ha⟩).toNat : Int))] →
    ∃ t, exec i s = .next t ∧ ((t.readReg ⟨a.toNat, ha⟩).toNat : Int) = r % 256 ∧
      t.pc = s.pc + 2 ∧ Frame { regs := [⟨a.toNat, ha⟩] } s t

/-- The ALU at its own interface: selectors 14 and 15 are the Unsupported ALU operation fault with the selector as its
detail, on any operands, and no other selector is (selector values: D2, log 2). -/
def Obligations.OnlyUndefinedSelectorsAreUnsupported : Prop :=
  ∀ (sel : BitVec 4) (a b : Byte),
    aluApply sel a b = .error (.unsupportedAluOperation sel) ↔ sel = 14 ∨ sel = 15

/-! ### Faults -/

/-- The register operand (30_encoding.md R49). The whole byte is the index: 0 to 7 name the register of that number, and
above 7 it is a Bounds fault with the whole byte as its detail, for EVERY instruction and every register position, whatever
the instruction would have done, a jump that is not taken too (the spec's decision D18, log 19); the first such operand is the
one reported (D12, log 14), and nothing else happens (D10, log 12). -/
def Obligations.RegisterOperandAbove7Faults : Prop :=
  (∀ (s : State) (b : Byte), (∀ h : b.toNat < 8, s.regRead b = .ok (s.readReg ⟨b.toNat, h⟩)) ∧
    (8 ≤ b.toNat → s.regRead b = .error (.boundsRegister b))) ∧
  (∀ (i : Instr) (s : State) (before after : List Byte) (b : Byte),
    i.registerOperands = before ++ b :: after → (∀ x ∈ before, x.toNat ≤ 7) → 8 ≤ b.toNat →
    exec i s = .next { s with run := .faulted ⟨s.pc, .boundsRegister b⟩ })

/-- An instruction faults exactly when the priority list says so, and with the first cause of that list (60_exceptions.md
R121, items 4 and 5; D12, log 14; the causes: D13, D14, D18, logs 15, 16, 19), and then changes nothing but the run state
(D10, log 12); otherwise it completes and the machine is still running, or halted by HLT. -/
def Obligations.InstructionsFaultExactlyByPriority : Prop :=
  ∀ (i : Instr) (s : State),
    (∀ c, s.execFault i = some c → exec i s = .next { s with run := .faulted ⟨s.pc, c⟩ }) ∧
    (s.execFault i = none → ∃ t, exec i s = .next t ∧ t.run = (if i = .hlt then .halted else s.run))

/-- A whole step faults exactly by the priority list: fetch, unknown opcode, operand fetch, register index, own faults
(60_exceptions.md R121, D12, D19, D21, log 14; the causes: D1, D13, D14, D18, logs 4, 15, 16, 19), and then changes nothing
but the run state and IR (D10, log 12); a step with no fault completes, its machine RUNNING or HALTED. -/
def Obligations.StepsFaultExactlyByPriority : Prop :=
  ∀ s : State, s.run = .running →
    (∀ c, s.stepFault = some c → step s = .next { s with
      ir := if s.pc.toNat ≤ 255 then s.mem.read s.pc.toNat else s.ir, run := .faulted ⟨s.pc, c⟩ }) ∧
    (s.stepFault = none → ∃ t, step s = .next t ∧ s.pc.toNat ≤ 255 ∧ t.ir = s.mem.read s.pc.toNat ∧
      (t.run = .running ∨ t.run = .halted))

/-- Faults are precise (60_exceptions.md R122; D10, log 12): a step that ends FAULTED has changed nothing but the run
state and IR, and the record names the PC, which still points at the faulting instruction. -/
def Obligations.FaultsArePrecise : Prop :=
  ∀ (s t : State) (r : FaultRecord), step s = .next t → t.run = .faulted r →
    t = { s with run := .faulted r, ir := t.ir } ∧ r.address = s.pc ∧
    (t.ir = s.ir ∨ t.ir = s.mem.read s.pc.toNat)

/-- Unsupported ALU operation is unreachable from a step (60_exceptions.md R116; D20, log 20). -/
def Obligations.UnsupportedAluOperationIsUnreachable : Prop :=
  ∀ (s t : State) (r : FaultRecord) (sel : BitVec 4), step s = .next t → t.run = .faulted r →
    r.cause ≠ .unsupportedAluOperation sel

/-- The fields of the fault record: reason codes 0 to 3, the kind of a Bounds fault, the detail, and the final state that
`run` reports (60_exceptions.md R114; the spec's decision D11, log 13). -/
def Obligations.FaultRecordFields : Prop :=
  ∀ (s : State) (ir index : Byte) (sel : BitVec 4) (a : Int) (c : FaultCause),
    (FaultCause.unsupportedOpcode ir).reasonCode = 0 ∧ (FaultCause.unsupportedOpcode ir).detail = ir.toNat ∧
    (FaultCause.unsupportedAluOperation sel).reasonCode = 1 ∧ (FaultCause.unsupportedAluOperation sel).detail = sel.toNat ∧
    (FaultCause.arithmetic ir).reasonCode = 2 ∧ (FaultCause.arithmetic ir).detail = ir.toNat ∧
    (FaultCause.boundsMemory a).reasonCode = 3 ∧ (FaultCause.boundsMemory a).kindCode = some 0 ∧
    (FaultCause.boundsMemory a).detail = a ∧
    (FaultCause.boundsRegister index).reasonCode = 3 ∧ (FaultCause.boundsRegister index).kindCode = some 1 ∧
    (FaultCause.boundsRegister index).detail = index.toNat ∧
    (s.raise c).finalState = some (.faulted c s.pc)

/-! ### The step -/

/-- A step runs the decoded instruction: when the bytes at PC decode, well formed or not, the step is `exec` of that
instruction in the same state with the opcode byte in IR; PC still holds the address of the opcode. -/
def Obligations.StepRunsTheDecodedInstruction : Prop :=
  ∀ (s : State) (i : Instr) (rest : List Byte), s.run = .running →
    decode (s.bytesFrom s.pc.toNat 3) = .ok (i, rest) →
    step s = exec i { s with ir := s.mem.read s.pc.toNat }

/-- The opcode fetch (40_instruction_cycle.md R62): at a PC above 255 the step raises `Bounds(pc0)` with nothing fetched
and IR unchanged; otherwise IR receives the byte of memory at PC, whatever the step goes on to do, and that byte is what
the last write of the cell stored. That a PC above 255 faults and does not wrap is the spec's decision D1 (log 4), and that
nothing else changes then its D10 (log 12). -/
def Obligations.FetchReadsTheCellAtPc : Prop :=
  (∀ s : State, s.run = .running → 255 < s.pc.toNat →
    step s = .next { s with run := .faulted ⟨s.pc, .boundsMemory s.pc.toNat⟩ }) ∧
  (∀ s t : State, s.pc.toNat ≤ 255 → step s = .next t → t.ir = s.mem.read s.pc.toNat) ∧
  (∀ (s t u : State) (v : Byte), s.mem.wf = true → s.memWrite s.pc.toNat v = .ok t → step t = .next u → u.ir = v)

/-- Self-modifying code takes effect from the very next step (20_memory.md R43): if a PUSH stores into the cell where the
next instruction begins, the next step fetches the pushed byte. -/
def Obligations.PushedCodeIsFetchedNext : Prop :=
  ∀ (s t u : State) (a : Byte) (ha : a.toNat < 7) (rest : List Byte), s.mem.wf = true →
    decode (s.bytesFrom s.pc.toNat 3) = .ok (.push a, rest) → s.sp.toNat - 1 = s.pc.toNat + 2 →
    step s = .next t → step t = .next u → u.ir = s.readReg ⟨a.toNat, by omega⟩

/-- The default advance is plain addition that does not wrap, from any address an instruction can be fetched at
(10_state.md R18; the width of PC is the spec's decision D1, log 4). -/
def Obligations.DefaultAdvanceDoesNotWrap : Prop :=
  ∀ (s : State) (n : Nat), s.pc.toNat ≤ 255 → n ≤ 2 → (s.advance n).pc.toNat = s.pc.toNat + 1 + n

/-- The run state (10_state.md R23). Initially RUNNING with PC = 0; a step begins in RUNNING and ends in RUNNING, in
HALTED exactly when HLT executed, or in FAULTED exactly when the step raised a fault; HALTED and FAULTED have no step, a
run leaves them as they are (D24, log 21), `load` is refused there (log 18), and the host's reset leads out. Which fault a step raises rests on
the decisions of logs 14 to 16 and 19. -/
def Obligations.RunStateTransitions : Prop :=
  (State.reset.run = .running ∧ State.reset.pc = 0) ∧
  (∀ s t : State, step s = .next t → s.run = .running ∧
    (t.run = .halted ↔ ∃ rest, decode (s.bytesFrom s.pc.toNat 3) = .ok (.hlt, rest)) ∧
    (∀ r, t.run = .faulted r ↔ s.stepFault = some r.cause ∧ r.address = s.pc)) ∧
  (∀ s : State, s.run ≠ .running → (∀ t, step s ≠ .next t) ∧ s.runOnce = s ∧
    (∀ bytes t, s.load bytes ≠ .next t) ∧ s.hostReset = State.reset)

/-! ### Whole-machine rules -/

/-- FL is written by CMP and by nothing else (10_state.md R20). -/
def Obligations.OnlyCmpWritesFlags : Prop :=
  ∀ (i : Instr) (s t : State), exec i s = .next t → t.fl ≠ s.fl → ∃ a b, i = .cmp a b

/-- FL is read by the six conditional jumps and by nothing else (10_state.md R20): any other instruction does the same
whatever FL holds, and leaves FL as it was unless it is CMP, which sets it the same. -/
def Obligations.OnlyConditionalJumpsReadFlags : Prop :=
  ∀ (i : Instr) (s t : State) (f : Byte), isConditionalJump i = false → exec i s = .next t →
    ∃ u, exec i { s with fl := f } = .next u ∧ u = { t with fl := u.fl } ∧
      (u.fl = t.fl ∨ (u.fl = f ∧ t.fl = s.fl))

/-- Memory is written by PUSH and CALL only, and only in the cell below the stack pointer (20_memory.md R32). -/
def Obligations.OnlyPushAndCallWriteMemory : Prop :=
  ∀ (i : Instr) (s t : State) (x : Nat), exec i s = .next t → t.mem.read x ≠ s.mem.read x →
    (∃ a, i = .push a ∨ i = .call a) ∧ s.sp ≠ 0 ∧ x = s.sp.toNat - 1

/-- An instruction writes no general register but those of the table of 10_state.md R15. -/
def Obligations.RegistersWrittenAreThoseOfTheTable : Prop :=
  ∀ (i : Instr) (s t : State) (j : RegIndex), exec i s = .next t → t.readReg j ≠ s.readReg j → j ∈ writtenRegs i

/-- R5 (IM) and R6 (IS) have no special case, and no register has but R7 (10_state.md R13): a register other than R7 is
written only as the destination operand of an instruction (`writtenRegs` lists those and R7), and read only as an operand (with another value in a register
that the instruction does not name, it does the same and keeps that value); and every instruction does the same to the
renamed registers when the registers other than R7 are renamed in the instruction and in the state. -/
def Obligations.NoRegisterButTheStackPointerIsSpecial : Prop :=
  (∀ (i : Instr) (s t : State) (j : RegIndex), j ≠ Config.spIndex → exec i s = .next t →
    (t.readReg j ≠ s.readReg j → j ∈ writtenRegs i) ∧
    (∀ v : Byte, (∀ b ∈ i.registerOperands, b.toNat ≠ j.val) →
      exec i (s.writeReg j v.toNat) = .next (t.writeReg j v.toNat))) ∧
  (∀ (p : Equiv.Perm (Fin 8)) (i : Instr) (s t : State), p Config.spIndex = Config.spIndex → exec i s = .next t →
    exec (renameInstr p i) (s.permuteRegs p) = .next (t.permuteRegs p))

/-- The order of output (41_system_load_output.md R79): a step appends at most one event, at the end of the trace, in the
step itself; no event is ever removed or changed; only a PRN or a PRA that does not fault appends one, and each of those
does; a step that faults or halts appends none. -/
def Obligations.OutputGrowsOnlyByPrints : Prop :=
  ∀ s t : State, step s = .next t →
    (t.out = s.out ∨ ∃ e, t.out = s.out ++ [e]) ∧
    (t.out ≠ s.out ↔ t.run = .running ∧
      ∃ a rest, decode (s.bytesFrom s.pc.toNat 3) = .ok (.prn a, rest) ∨
        decode (s.bytesFrom s.pc.toNat 3) = .ok (.pra a, rest))

/-- No step reads the output trace, and none reads the IR of an earlier step (10_state.md R26, R27): from a state that
differs in those two only, the step does the same, with the same events appended. -/
def Obligations.TraceAndOldIrAreNeverRead : Prop :=
  ∀ (s t : State) (o : List OutEvent) (x : Byte), s.pc.toNat ≤ 255 → step s = .next t →
    ∃ es, t.out = s.out ++ es ∧ step { s with out := o, ir := x } = .next { t with out := o ++ es }

/-- From the reset range of PC no step leaves PC above 256 (a consequence of 10_state.md R17 and 40_instruction_cycle.md
R64: an operand byte above 255 faults before the advance), so 257 and 258, which the spec allows for, never occur. -/
def Obligations.PcNeverPasses256 : Prop :=
  ∀ s t : State, s.pc.toNat ≤ 256 → step s = .next t → t.pc.toNat ≤ 256

/-! ### The invariant -/

/-- The invariant holds at reset: the zeros of FL and memory are the spec's decision D4 (logs 5 and 6), and the canonical
form of memory is the model's own (log 6). -/
def Obligations.InvariantHoldsAtReset : Prop := State.reset.Inv

/-- Every step keeps the invariant, from every state that has it: memory in the model's own canonical form (log 6), PC in 0 to
258 (the spec's decision D1, log 4), FL one of its four values (10_state.md R21; bits 7:3 zero: D25, log 22), and a fault
record that names the PC, which stays at the faulting instruction (D10, log 12), and a cause that 60_exceptions.md R114 to
R118 allow (the record's fields: D11, log 13; the addresses 256 and -1 of CALL and a push: D13 and D14, logs 15 and 16; no
Unsupported ALU operation: D20, log 20; the bytes with no entry: D2 and D3, logs 2 and 3). -/
def Obligations.EveryStepKeepsTheInvariant : Prop :=
  ∀ s t : State, s.Inv → step s = .next t → t.Inv

/-! ### Reset and the host -/

/-- The state after reset: PC 0, R7 0xF4 and RUNNING are stated by the source; the zeros of R0 to R6, FL, IR and all of
memory are the spec's decision D4 (logs 5 and 6) and the empty trace its D15 (log 17). -/
def Obligations.ResetState : Prop :=
  State.reset.pc = 0 ∧ State.reset.sp = 0xF4 ∧ State.reset.run = .running ∧
  (∀ j : RegIndex, j ≠ Config.spIndex → State.reset.readReg j = 0) ∧ State.reset.fl = 0 ∧ State.reset.ir = 0 ∧
  (∀ a : Nat, State.reset.mem.read a = 0) ∧ State.reset.out = [] ∧ State.reset.finalState = none

/-- A step from reset with nothing loaded is the Unsupported opcode fault of the byte 0x00 at address 0
(70_reset_and_hazards.md R139; rests on D3, D4 and D10, logs 3, 5, 6 and 12). -/
def Obligations.EmptyMemoryFaultsAtOnce : Prop :=
  step State.reset = .next { State.reset with run := .faulted ⟨0, .unsupportedOpcode 0⟩ }

/-- On a RUNNING machine `load` puts byte `k` in cell `k`, keeps every later cell and all other state, and keeps memory
canonical; it refuses more than 256 bytes (70_reset_and_hazards.md R136; the refusal is the spec's decision D17, log 18). On
a HALTED or FAULTED machine it refuses any image, the model's reading of 10_state.md R23 beside R136 (log 18). -/
def Obligations.LoadCopiesTheImage : Prop :=
  ∀ (s : State) (bytes : List Byte),
    (s.run = .running → s.mem.wf = true →
      (bytes.length ≤ 256 → ∃ t, s.load bytes = .next t ∧ t = { s with mem := t.mem } ∧ t.mem.wf = true ∧
        ∀ a : Nat, t.mem.read a = bytes.getD a (s.mem.read a)) ∧
      (256 < bytes.length → s.load bytes = .refused (.imageTooLong bytes.length))) ∧
    (s.run ≠ .running → s.load bytes = .refused .loadIntoStopped)

/-- The whole run is fixed by the state it starts in (40_instruction_cycle.md R70): a run that ends, ends in one state
only, every turn of the loop passes through one state only, and nothing from outside enters. -/
def Obligations.TheWholeRunIsFixed : Prop :=
  (∀ s t u : State, RunsTo s t → RunsTo s u → t = u) ∧
  (∀ (s t : State) (n : Nat), RunsTo s t → (s.runFor n).run ≠ .running → s.runFor n = t) ∧
  (∀ (s : State) (m n : Nat), s.runFor (m + n) = (s.runFor m).runFor n)

/-- A run that ends in HALTED never passed through FAULTED: there is no way out of a fault during a run
(60_exceptions.md R123, R124). -/
def Obligations.CleanHaltNeverFaulted : Prop :=
  ∀ s : State, HaltsCleanly s → ∀ n : Nat, (s.runFor n).NotFaulted
end

