-- ==== Sys2Proof/Laws/Decode.lean ====
section
/-! SUPPORT. Lemmas of the dispatcher's table and the decoder. -/

namespace Sys2Proof

theorem Mnemonic.mem_all (k : Mnemonic) : k ∈ Mnemonic.all := by
  cases k <;> decide

/-- A lookup that answers gives the entry of a mnemonic whose opcode byte is the key. -/
theorem mnemonicOf_some {m : OpcodeMap} {ir : Byte} {k : Mnemonic} (h : m.mnemonicOf ir = some k) : m k = ir := by
  simpa using List.find?_some h

/-- The lookup answers nothing exactly for the bytes no mnemonic has. -/
theorem mnemonicOf_none {m : OpcodeMap} {ir : Byte} : m.mnemonicOf ir = none ↔ ∀ k, m k ≠ ir := by
  constructor
  · intro h k hk
    have := List.find?_eq_none.mp h k (Mnemonic.mem_all k)
    simp [hk] at this
  · intro h
    apply List.find?_eq_none.mpr
    intro k _
    simp [h k]

/-- Taking operands from a sequence that starts with them. -/
@[simp] theorem takeOperands_zero (ir : Byte) (rest : List Byte) : takeOperands ir 0 rest = .ok (0, 0, rest) := rfl

@[simp] theorem takeOperands_one (ir a : Byte) (rest : List Byte) :
    takeOperands ir 1 (a :: rest) = .ok (a, 0, rest) := rfl

@[simp] theorem takeOperands_two (ir a b : Byte) (rest : List Byte) :
    takeOperands ir 2 (a :: b :: rest) = .ok (a, b, rest) := rfl

end Sys2Proof
end

