-- ==== Sys2Proof/Laws/Memory.lean ====
section
/-! SUPPORT. The laws of memory as data: read after write, and the canonical form is kept by every operation. -/

namespace Sys2Proof.Machine

theorem read_consCell (a : Nat) (v : Byte) (m : Memory) (b : Nat) (hm : a ≠ b ∨ v ≠ Config.memReset ∨
    Memory.read m a = Config.memReset) :
    (Memory.consCell a v m).read b = if a = b then v else m.read b := by
  unfold Memory.consCell
  by_cases hv : v = Config.memReset
  · simp only [hv, if_true]
    by_cases hab : a = b
    · subst hab
      rcases hm with h | h | h
      · exact absurd rfl h
      · exact absurd hv h
      · simp [h]
    · simp [hab]
  · simp [hv, Memory.read]

/-- Below the first listed address a canonical memory reads as the reset value. -/
theorem read_of_wfFrom_lt {lo : Nat} {m : Memory} (h : m.wfFrom lo = true) {a : Nat} (ha : a < lo) :
    m.read a = Config.memReset := by
  induction m generalizing lo with
  | nil => rfl
  | cons c m ih =>
    obtain ⟨k, v⟩ := c
    simp only [Memory.wfFrom, Bool.and_eq_true, decide_eq_true_eq] at h
    have hk : k ≠ a := by omega
    simp only [Memory.read, hk, if_false]
    exact ih h.2 (by omega)

theorem wfFrom_mono {lo lo' : Nat} {m : Memory} (h : m.wfFrom lo = true) (hl : lo' ≤ lo) : m.wfFrom lo' = true := by
  cases m with
  | nil => rfl
  | cons c m =>
    obtain ⟨k, v⟩ := c
    simp only [Memory.wfFrom, Bool.and_eq_true, decide_eq_true_eq] at h ⊢
    exact ⟨⟨⟨by omega, h.1.1.2⟩, h.1.2⟩, h.2⟩

theorem consCell_wfFrom {lo a : Nat} {v : Byte} {m : Memory} (hm : m.wfFrom (a + 1) = true) (hlo : lo ≤ a)
    (ha : a < Config.memSize) : (Memory.consCell a v m).wfFrom lo = true := by
  unfold Memory.consCell
  by_cases hv : v = Config.memReset
  · simp only [hv, if_true]
    exact wfFrom_mono hm (by omega)
  · simp [hv, Memory.wfFrom, hm, hlo, ha]

theorem write_wfFrom {lo a : Nat} {v : Byte} {m : Memory} (hm : m.wfFrom lo = true) (hlo : lo ≤ a)
    (ha : a < Config.memSize) : (m.write a v).wfFrom lo = true := by
  induction m generalizing lo with
  | nil => exact consCell_wfFrom rfl hlo ha
  | cons c m ih =>
    obtain ⟨k, w⟩ := c
    have h := hm
    simp only [Memory.wfFrom, Bool.and_eq_true, decide_eq_true_eq] at h
    simp only [Memory.write]
    split
    · refine consCell_wfFrom ?_ hlo ha
      simp only [Memory.wfFrom, Bool.and_eq_true, decide_eq_true_eq]
      exact ⟨⟨⟨by omega, h.1.1.2⟩, h.1.2⟩, h.2⟩
    · split
      · rename_i hak
        exact consCell_wfFrom (hak ▸ h.2) hlo ha
      · simp only [Memory.wfFrom, Bool.and_eq_true, decide_eq_true_eq]
        exact ⟨h.1, ih h.2 (by omega)⟩

/-- A write of a cell inside memory keeps the canonical form. -/
theorem write_wf {a : Nat} {v : Byte} {m : Memory} (hm : m.wf = true) (ha : a < Config.memSize) :
    (m.write a v).wf = true :=
  write_wfFrom hm (Nat.zero_le a) ha

/-- The written cell reads as the byte written, every other as before. -/
theorem read_write_from {lo a : Nat} {v : Byte} {m : Memory} (hm : m.wfFrom lo = true) (b : Nat) :
    (m.write a v).read b = if a = b then v else m.read b := by
  induction m generalizing lo with
  | nil => exact read_consCell a v [] b (.inr (.inr rfl))
  | cons c m ih =>
    obtain ⟨k, w⟩ := c
    have h := hm
    simp only [Memory.wfFrom, Bool.and_eq_true, decide_eq_true_eq] at h
    simp only [Memory.write]
    split
    · rename_i hak
      refine read_consCell a v _ b (.inr (.inr ?_))
      have hk : k ≠ a := by omega
      simp only [Memory.read, hk, if_false]
      exact read_of_wfFrom_lt h.2 (by omega)
    · split
      · rename_i hak
        subst hak
        rw [read_consCell a v m b (.inr (.inr (read_of_wfFrom_lt h.2 (by omega))))]
        by_cases hab : a = b
        · simp [hab]
        · simp [hab, Memory.read]
      · rename_i h1 h2
        simp only [Memory.read, ih h.2]
        by_cases hkb : k = b
        · have : a ≠ b := by omega
          simp [hkb, this]
        · simp [hkb]

theorem read_write {a : Nat} {v : Byte} {m : Memory} (hm : m.wf = true) (b : Nat) :
    (m.write a v).read b = if a = b then v else m.read b :=
  read_write_from hm b

/-- A write leaves every other cell alone, in any memory. -/
theorem read_write_ne {a b : Nat} {v : Byte} (m : Memory) (h : a ≠ b) : (m.write a v).read b = m.read b := by
  induction m with
  | nil => rw [Memory.write, read_consCell a v [] b (.inl h), if_neg h]
  | cons c m ih =>
    obtain ⟨k, w⟩ := c
    simp only [Memory.write]
    split
    · simpa [h] using read_consCell a v ((k, w) :: m) b (.inl h)
    · split
      · rename_i h1 h2
        have hk : k ≠ b := by omega
        rw [read_consCell a v m b (.inl h)]
        simp [h, Memory.read, hk]
      · simp only [Memory.read, ih]

/-- Copying bytes into memory keeps the canonical form. -/
theorem writeBytes_wf {m : Memory} {a : Nat} {bs : List Byte} (hm : m.wf = true)
    (ha : a + bs.length ≤ Config.memSize) : (m.writeBytes a bs).wf = true := by
  induction bs generalizing m a with
  | nil => exact hm
  | cons b bs ih =>
    simp only [List.length_cons] at ha
    exact ih (write_wf hm (by omega)) (by omega)

/-- After a copy of bytes from `a` up, the copied cells hold them and every other cell is as before. -/
theorem read_writeBytes {m : Memory} {a : Nat} {bs : List Byte} (hm : m.wf = true)
    (ha : a + bs.length ≤ Config.memSize) (b : Nat) :
    (m.writeBytes a bs).read b = if h : a ≤ b ∧ b - a < bs.length then bs[b - a]'h.2 else m.read b := by
  induction bs generalizing m a with
  | nil => simp [Memory.writeBytes]
  | cons x bs ih =>
    simp only [List.length_cons] at ha
    rw [Memory.writeBytes, ih (write_wf hm (by omega)) (by omega), read_write hm]
    by_cases hab : a = b
    · subst hab
      simp
    · by_cases hle : a + 1 ≤ b
      · have e : b - a = (b - (a + 1)) + 1 := by omega
        by_cases hl : b - (a + 1) < bs.length
        · have h1 : a + 1 ≤ b ∧ b - (a + 1) < bs.length := ⟨hle, hl⟩
          have h2 : a ≤ b ∧ b - a < (x :: bs).length := ⟨by omega, by simp; omega⟩
          rw [dif_pos h1, dif_pos h2]
          simp [e]
        · have h1 : ¬ (a + 1 ≤ b ∧ b - (a + 1) < bs.length) := fun h => hl h.2
          have h2 : ¬ (a ≤ b ∧ b - a < (x :: bs).length) := fun h => hl (by have := h.2; simp at this; omega)
          rw [dif_neg h1, dif_neg h2]
          simp [hab]
      · have h1 : ¬ (a + 1 ≤ b ∧ b - (a + 1) < bs.length) := fun h => hle h.1
        have h2 : ¬ (a ≤ b ∧ b - a < (x :: bs).length) := fun h => by omega
        rw [dif_neg h1, dif_neg h2]
        simp [hab]

/-- The reset memory is in canonical form. -/
theorem reset_mem_wf : State.reset.mem.wf = true := rfl

end Sys2Proof.Machine
end

