-- ==== Sys2Proof/Laws/State.lean ====
section
/-! SUPPORT. One lemma per field per update of the state, and the register file's read-after-write law. -/

namespace Sys2Proof.Machine

/-! ### mask8 -/

@[simp] theorem mask8_natCast_byte (b : Byte) : mask8 (b.toNat : Int) = b := by
  simp [mask8]

theorem mask8_toNat (v : Int) : ((mask8 v).toNat : Int) = v % 256 := by
  simp [mask8, BitVec.toNat_ofInt]
  omega

/-! ### writeReg -/

@[simp] theorem writeReg_pc (s : State) (i : RegIndex) (v : Int) : (s.writeReg i v).pc = s.pc := rfl
@[simp] theorem writeReg_fl (s : State) (i : RegIndex) (v : Int) : (s.writeReg i v).fl = s.fl := rfl
@[simp] theorem writeReg_ir (s : State) (i : RegIndex) (v : Int) : (s.writeReg i v).ir = s.ir := rfl
@[simp] theorem writeReg_mem (s : State) (i : RegIndex) (v : Int) : (s.writeReg i v).mem = s.mem := rfl
@[simp] theorem writeReg_run (s : State) (i : RegIndex) (v : Int) : (s.writeReg i v).run = s.run := rfl
@[simp] theorem writeReg_out (s : State) (i : RegIndex) (v : Int) : (s.writeReg i v).out = s.out := rfl

/-- A register reads as the masked value after its write, and as before after a write of another. -/
theorem readReg_writeReg (s : State) (i j : RegIndex) (v : Int) :
    (s.writeReg i v).readReg j = if i = j then mask8 v else s.readReg j := by
  simp only [State.readReg, State.writeReg, Vector.getElem_set, Fin.ext_iff]

@[simp] theorem readReg_writeReg_same (s : State) (i : RegIndex) (v : Int) :
    (s.writeReg i v).readReg i = mask8 v := by
  simp [readReg_writeReg]

theorem readReg_writeReg_ne (s : State) {i j : RegIndex} (v : Int) (h : i ≠ j) :
    (s.writeReg i v).readReg j = s.readReg j := by
  simp [readReg_writeReg, h]

@[simp] theorem setSp_sp (s : State) (v : Int) : (s.setSp v).sp = mask8 v := by
  simp [State.setSp, State.sp]

@[simp] theorem setSp_pc (s : State) (v : Int) : (s.setSp v).pc = s.pc := rfl
@[simp] theorem setSp_fl (s : State) (v : Int) : (s.setSp v).fl = s.fl := rfl
@[simp] theorem setSp_ir (s : State) (v : Int) : (s.setSp v).ir = s.ir := rfl
@[simp] theorem setSp_mem (s : State) (v : Int) : (s.setSp v).mem = s.mem := rfl
@[simp] theorem setSp_run (s : State) (v : Int) : (s.setSp v).run = s.run := rfl
@[simp] theorem setSp_out (s : State) (v : Int) : (s.setSp v).out = s.out := rfl

/-! ### advance and setPc -/

@[simp] theorem advance_pc (s : State) (n : Nat) : (s.advance n).pc = s.pc + BitVec.ofNat 9 (1 + n) := rfl
@[simp] theorem advance_readReg (s : State) (n : Nat) (j : RegIndex) : (s.advance n).readReg j = s.readReg j := rfl
@[simp] theorem advance_fl (s : State) (n : Nat) : (s.advance n).fl = s.fl := rfl
@[simp] theorem advance_ir (s : State) (n : Nat) : (s.advance n).ir = s.ir := rfl
@[simp] theorem advance_mem (s : State) (n : Nat) : (s.advance n).mem = s.mem := rfl
@[simp] theorem advance_run (s : State) (n : Nat) : (s.advance n).run = s.run := rfl
@[simp] theorem advance_out (s : State) (n : Nat) : (s.advance n).out = s.out := rfl

@[simp] theorem setPc_pc (s : State) (t : Byte) : (s.setPc t).pc = t.setWidth 9 := rfl
@[simp] theorem setPc_readReg (s : State) (t : Byte) (j : RegIndex) : (s.setPc t).readReg j = s.readReg j := rfl
@[simp] theorem setPc_fl (s : State) (t : Byte) : (s.setPc t).fl = s.fl := rfl
@[simp] theorem setPc_ir (s : State) (t : Byte) : (s.setPc t).ir = s.ir := rfl
@[simp] theorem setPc_mem (s : State) (t : Byte) : (s.setPc t).mem = s.mem := rfl
@[simp] theorem setPc_run (s : State) (t : Byte) : (s.setPc t).run = s.run := rfl
@[simp] theorem setPc_out (s : State) (t : Byte) : (s.setPc t).out = s.out := rfl

/-- A jump target is a byte, so PC stays in 0 to 255. -/
theorem setPc_pc_le (s : State) (t : Byte) : (s.setPc t).pc.toNat ≤ 255 := by
  simp [State.setPc]
  omega

/-! ### emit -/

@[simp] theorem emit_pc (s : State) (e : OutEvent) : (s.emit e).pc = s.pc := rfl
@[simp] theorem emit_readReg (s : State) (e : OutEvent) (j : RegIndex) : (s.emit e).readReg j = s.readReg j := rfl
@[simp] theorem emit_fl (s : State) (e : OutEvent) : (s.emit e).fl = s.fl := rfl
@[simp] theorem emit_ir (s : State) (e : OutEvent) : (s.emit e).ir = s.ir := rfl
@[simp] theorem emit_mem (s : State) (e : OutEvent) : (s.emit e).mem = s.mem := rfl
@[simp] theorem emit_run (s : State) (e : OutEvent) : (s.emit e).run = s.run := rfl
@[simp] theorem emit_out (s : State) (e : OutEvent) : (s.emit e).out = s.out ++ [e] := rfl

/-! ### halt and raise -/

@[simp] theorem halt_pc (s : State) : s.halt.pc = s.pc := rfl
@[simp] theorem halt_readReg (s : State) (j : RegIndex) : s.halt.readReg j = s.readReg j := rfl
@[simp] theorem halt_fl (s : State) : s.halt.fl = s.fl := rfl
@[simp] theorem halt_ir (s : State) : s.halt.ir = s.ir := rfl
@[simp] theorem halt_mem (s : State) : s.halt.mem = s.mem := rfl
@[simp] theorem halt_run (s : State) : s.halt.run = .halted := rfl
@[simp] theorem halt_out (s : State) : s.halt.out = s.out := rfl

@[simp] theorem raise_pc (s : State) (c : FaultCause) : (s.raise c).pc = s.pc := rfl
@[simp] theorem raise_readReg (s : State) (c : FaultCause) (j : RegIndex) : (s.raise c).readReg j = s.readReg j := rfl
@[simp] theorem raise_fl (s : State) (c : FaultCause) : (s.raise c).fl = s.fl := rfl
@[simp] theorem raise_ir (s : State) (c : FaultCause) : (s.raise c).ir = s.ir := rfl
@[simp] theorem raise_mem (s : State) (c : FaultCause) : (s.raise c).mem = s.mem := rfl
@[simp] theorem raise_run (s : State) (c : FaultCause) : (s.raise c).run = .faulted ⟨s.pc, c⟩ := rfl
@[simp] theorem raise_out (s : State) (c : FaultCause) : (s.raise c).out = s.out := rfl

/-! ### setFlags -/

@[simp] theorem setFlags_pc (s : State) (o : CompareOutcome) : (s.setFlags o).pc = s.pc := rfl
@[simp] theorem setFlags_readReg (s : State) (o : CompareOutcome) (j : RegIndex) :
    (s.setFlags o).readReg j = s.readReg j := rfl
@[simp] theorem setFlags_fl (s : State) (o : CompareOutcome) : (s.setFlags o).fl = o.flags := rfl
@[simp] theorem setFlags_ir (s : State) (o : CompareOutcome) : (s.setFlags o).ir = s.ir := rfl
@[simp] theorem setFlags_mem (s : State) (o : CompareOutcome) : (s.setFlags o).mem = s.mem := rfl
@[simp] theorem setFlags_run (s : State) (o : CompareOutcome) : (s.setFlags o).run = s.run := rfl
@[simp] theorem setFlags_out (s : State) (o : CompareOutcome) : (s.setFlags o).out = s.out := rfl

/-! ### memory and IR as fields -/

@[simp] theorem readReg_with_mem (s : State) (m : Memory) (j : RegIndex) :
    ({ s with mem := m } : State).readReg j = s.readReg j := rfl

@[simp] theorem readReg_with_ir (s : State) (b : Byte) (j : RegIndex) :
    ({ s with ir := b } : State).readReg j = s.readReg j := rfl

end Sys2Proof.Machine
end

