-- ==== Sys2Proof/Laws/Ops.lean ====
section
/-! SUPPORT. One lemma per shared operation that says once what it does; later proofs cite these. -/

namespace Sys2Proof.Machine

/-! ### Sequencing -/

@[simp] theorem ok_bind {α β : Type} (x : α) (f : α → Except FaultCause β) :
    (Except.ok x >>= f) = f x := rfl

@[simp] theorem error_bind {α β : Type} (c : FaultCause) (f : α → Except FaultCause β) :
    ((Except.error c : Except FaultCause α) >>= f) = Except.error c := rfl

@[simp] theorem complete_ok (s t : State) : s.complete (.ok t) = .next t := rfl

@[simp] theorem complete_error (s : State) (c : FaultCause) : s.complete (.error c) = .next (s.raise c) := rfl

/-- Whatever an instruction computes, it answers a next state: its own, or the fault it raised, taken in `s`. -/
theorem complete_cases (s : State) (r : Except FaultCause State) :
    (∃ t, r = .ok t ∧ s.complete r = .next t) ∨ (∃ c, r = .error c ∧ s.complete r = .next (s.raise c)) := by
  cases r with
  | ok t => exact .inl ⟨t, rfl, rfl⟩
  | error c => exact .inr ⟨c, rfl, rfl⟩

/-! ### Register operands -/

theorem checkReg_ok {b : Byte} (h : b.toNat < 8) : checkReg b = .ok ⟨b.toNat, h⟩ := by
  simp [checkReg, h]

theorem checkReg_error {b : Byte} (h : ¬ b.toNat < 8) : checkReg b = .error (.boundsRegister b) := by
  simp [checkReg, h]

/-- `checkReg` gives the index, or the Bounds fault of a byte above 7. -/
theorem checkReg_cases (b : Byte) :
    (∃ h : b.toNat < 8, checkReg b = .ok ⟨b.toNat, h⟩) ∨
    (¬ b.toNat < 8 ∧ checkReg b = .error (.boundsRegister b)) := by
  by_cases h : b.toNat < 8
  · exact .inl ⟨h, checkReg_ok h⟩
  · exact .inr ⟨h, checkReg_error h⟩

/-! ### Memory primitives -/

theorem validAddress_iff (a : Int) : validAddress a = true ↔ 0 ≤ a ∧ a < 256 := by
  cases a with
  | ofNat n =>
    have h : validAddress (Int.ofNat n) = true ↔ n < 256 := decide_eq_true_iff
    rw [h, Int.ofNat_eq_natCast]
    omega
  | negSucc n =>
    have h : validAddress (Int.negSucc n) = false := rfl
    rw [h]
    simp

theorem validAddress_natCast {a : Nat} (h : a < 256) : validAddress (a : Int) = true :=
  (validAddress_iff a).mpr ⟨by omega, by omega⟩

theorem memRead_ok (s : State) {a : Nat} (h : a < 256) : s.memRead a = .ok (s.mem.read a) := by
  simp [State.memRead, validAddress_natCast h]

theorem memRead_error (s : State) {a : Int} (h : ¬ (0 ≤ a ∧ a < 256)) : s.memRead a = .error (.boundsMemory a) := by
  have hv : validAddress a = false := by
    simpa using mt (validAddress_iff a).mp h
  simp [State.memRead, hv]

theorem memWrite_ok (s : State) {a : Nat} (v : Byte) (h : a < 256) :
    s.memWrite a v = .ok { s with mem := s.mem.write a v } := by
  simp [State.memWrite, validAddress_natCast h]

theorem memWrite_error (s : State) {a : Int} (v : Byte) (h : ¬ (0 ≤ a ∧ a < 256)) :
    s.memWrite a v = .error (.boundsMemory a) := by
  have hv : validAddress a = false := by
    simpa using mt (validAddress_iff a).mp h
  simp [State.memWrite, hv]

/-- The byte at the stack pointer is always in range, so its read never faults (42_stack_call.md R81). -/
theorem memRead_sp (s : State) : s.memRead s.sp.toNat = .ok (s.mem.read s.sp.toNat) :=
  memRead_ok s s.sp.isLt

/-! ### Stack -/

theorem pushAddress_ok {s : State} (h : s.sp.toNat ≠ 0) : s.pushAddress = .ok ((s.sp.toNat - 1 : Nat) : Int) := by
  have h1 : ¬ ((s.sp.toNat : Int) - 1 < 0) := by omega
  have h2 : (s.sp.toNat : Int) - 1 = ((s.sp.toNat - 1 : Nat) : Int) := by omega
  simp only [State.pushAddress, h1, if_false]
  rw [h2]

theorem pushAddress_error {s : State} (h : s.sp.toNat = 0) : s.pushAddress = .error (.boundsMemory (-1)) := by
  simp [State.pushAddress, h]

/-- A push with `x[7]` not 0 decrements it and stores at the new address what `v` reads after the decrement. -/
theorem push_ok {s : State} (v : State → Byte) (h : s.sp.toNat ≠ 0) :
    s.push v = .ok { s.setSp ((s.sp.toNat - 1 : Nat) : Int) with
      mem := s.mem.write (s.sp.toNat - 1) (v (s.setSp ((s.sp.toNat - 1 : Nat) : Int))) } := by
  have hlt : s.sp.toNat - 1 < 256 := by have := s.sp.isLt; omega
  simp only [State.push, pushAddress_ok h, ok_bind]
  rw [memWrite_ok _ _ hlt]
  simp

/-- A push with `x[7]` = 0 is the Bounds fault -1. -/
theorem push_error {s : State} (v : State → Byte) (h : s.sp.toNat = 0) :
    s.push v = .error (.boundsMemory (-1)) := by
  simp [State.push, pushAddress_error h]

theorem pop_ok (s : State) : s.pop = .ok (s.mem.read s.sp.toNat, s.incSp) := by
  simp only [State.pop, memRead_sp, ok_bind]

theorem returnAddress_ok {s : State} {n : Nat} (h : s.pc.toNat + 1 + n ≤ 255) :
    s.returnAddress n = .ok (BitVec.ofNat 8 (s.pc.toNat + 1 + n)) := by
  have h1 : ¬ (s.pc.toNat + 1 + n > 255) := by omega
  simp only [State.returnAddress, h1, if_false]

theorem returnAddress_error {s : State} {n : Nat} (h : 255 < s.pc.toNat + 1 + n) :
    s.returnAddress n = .error (.boundsMemory ((s.pc.toNat + 1 + n : Nat) : Int)) := by
  simp only [State.returnAddress, gt_iff_lt, h, if_true]

/-! ### The ALU -/

/-- The selector of a defined operation names that operation. -/
@[simp] theorem aluOpOfSelector_selector (op : AluOp) : aluOpOfSelector op.selector = some op := by
  cases op <;> rfl

@[simp] theorem aluApply_selector (op : AluOp) (a b : Byte) : aluApply op.selector a b = op.run a b := by
  simp [aluApply]

/-- What a defined operation gives: CMP its outcome, DIV and MOD by 0 the Arithmetic fault, every other case the masked
exact result. -/
theorem aluRun_cases (op : AluOp) (a b : Byte) :
    (op = .cmp ∧ op.run a b = .ok (.compare (compareBytes a b))) ∨
    ((op = .div ∨ op = .mod) ∧ b = 0 ∧ op.run a b = .error (.arithmetic (Config.opcodeMap op.mnemonic))) ∨
    (op ≠ .cmp ∧ ((op = .div ∨ op = .mod) → b ≠ 0) ∧
      op.run a b = .ok (.result (mask8 (op.exact a.toNat b.toNat)))) := by
  by_cases hb : b = 0
  · cases op <;> simp [AluOp.run, AluOp.mnemonic, hb]
  · cases op <;> simp only [AluOp.run, hb, if_false] <;> simp <;> exact hb

/-! ### The shapes of the instructions -/

theorem emitReg_ok (event : Byte → OutEvent) {a : Byte} (s : State) (h : a.toNat < 8) :
    emitReg event a s = .next ((s.emit (event (s.readReg ⟨a.toNat, h⟩))).advance 1) := by
  simp [emitReg, checkReg_ok h]

theorem jumpIf_ok (taken : Bool) {a : Byte} (s : State) (h : a.toNat < 8) :
    jumpIf taken a s = .next (if taken then s.setPc (s.readReg ⟨a.toNat, h⟩) else s.advance 1) := by
  simp [jumpIf, checkReg_ok h]

theorem aluBinary_ok {op : AluOp} {a b : Byte} (s : State) (ha : a.toNat < 8) (hb : b.toNat < 8) {r : AluOut}
    (hr : op.run (s.readReg ⟨a.toNat, ha⟩) (s.readReg ⟨b.toNat, hb⟩) = .ok r) :
    aluBinary op a b s = .next ((s.writeBack ⟨a.toNat, ha⟩ r).advance 2) := by
  simp [aluBinary, checkReg_ok ha, checkReg_ok hb, hr]

theorem aluBinary_error {op : AluOp} {a b : Byte} (s : State) (ha : a.toNat < 8) (hb : b.toNat < 8) {c : FaultCause}
    (hr : op.run (s.readReg ⟨a.toNat, ha⟩) (s.readReg ⟨b.toNat, hb⟩) = .error c) :
    aluBinary op a b s = .next (s.raise c) := by
  simp [aluBinary, checkReg_ok ha, checkReg_ok hb, hr]

theorem aluUnary_ok {op : AluOp} {a : Byte} (s : State) (ha : a.toNat < 8) {r : AluOut}
    (hr : op.run (s.readReg ⟨a.toNat, ha⟩) 0 = .ok r) :
    aluUnary op a s = .next ((s.writeBack ⟨a.toNat, ha⟩ r).advance 1) := by
  simp only [aluUnary, checkReg_ok ha, aluApply_selector, hr, ok_bind, complete_ok]

end Sys2Proof.Machine
end

