-- ==== Sys2Proof/Laws/Step.lean ====
section
/-! SUPPORT. What a step and a meaning can answer. -/

namespace Sys2Proof.Machine

theorem complete_next (s : State) (r : Except FaultCause State) : ∃ t, s.complete r = .next t := by
  cases r with
  | ok t => exact ⟨t, rfl⟩
  | error c => exact ⟨s.raise c, rfl⟩

theorem emitReg_next (event : Byte → OutEvent) (a : Byte) (s : State) : ∃ t, emitReg event a s = .next t :=
  complete_next s _

theorem jumpIf_next (taken : Bool) (a : Byte) (s : State) : ∃ t, jumpIf taken a s = .next t :=
  complete_next s _

theorem aluBinary_next (op : AluOp) (a b : Byte) (s : State) : ∃ t, aluBinary op a b s = .next t :=
  complete_next s _

theorem aluUnary_next (op : AluOp) (a : Byte) (s : State) : ∃ t, aluUnary op a s = .next t :=
  complete_next s _

/-- Every instruction answers a next state in every state: the effect of its own, or the fault it takes. -/
theorem exec_next (i : Instr) (s : State) : ∃ t, exec i s = .next t := by
  cases i with
  | hlt => exact ⟨s.halt, rfl⟩
  | ldi a imm =>
    rw [exec, execLdi]
    exact complete_next s _
  | prn a => exact emitReg_next _ a s
  | pra a => exact emitReg_next _ a s
  | push a =>
    rw [exec, execPush]
    exact complete_next s _
  | pop a =>
    rw [exec, execPop]
    exact complete_next s _
  | call a =>
    rw [exec, execCall]
    exact complete_next s _
  | ret =>
    rw [exec, execRet]
    exact complete_next s _
  | jmp a => exact jumpIf_next _ a s
  | jeq a => exact jumpIf_next _ a s
  | jne a => exact jumpIf_next _ a s
  | jgt a => exact jumpIf_next _ a s
  | jlt a => exact jumpIf_next _ a s
  | jle a => exact jumpIf_next _ a s
  | jge a => exact jumpIf_next _ a s
  | cmp a b => exact aluBinary_next .cmp a b s
  | add a b => exact aluBinary_next .add a b s
  | sub a b => exact aluBinary_next .sub a b s
  | mul a b => exact aluBinary_next .mul a b s
  | div a b => exact aluBinary_next .div a b s
  | mod a b => exact aluBinary_next .mod a b s
  | inc a => exact aluUnary_next .inc a s
  | dec a => exact aluUnary_next .dec a s
  | and a b => exact aluBinary_next .and a b s
  | not a => exact aluUnary_next .not a s
  | or a b => exact aluBinary_next .or a b s
  | xor a b => exact aluBinary_next .xor a b s
  | shl a b => exact aluBinary_next .shl a b s
  | shr a b => exact aluBinary_next .shr a b s

/-- Fetch and decode on success: the opcode byte is the one at `pc`, inside memory. -/
theorem fetchOpcode_ok {s : State} (h : s.pc.toNat ≤ 255) : s.fetchOpcode = .ok (s.mem.read s.pc.toNat) :=
  memRead_ok s (by omega)

theorem fetchOpcode_error {s : State} (h : 255 < s.pc.toNat) :
    s.fetchOpcode = .error (.boundsMemory s.pc.toNat) :=
  memRead_error s (by omega)

/-- The three ways one pass of the cycle can go. -/
theorem cycle_cases (s : State) :
    (255 < s.pc.toNat ∧ cycle s = .next (s.raise (.boundsMemory s.pc.toNat))) ∨
    (s.pc.toNat ≤ 255 ∧ ∃ c, ({ s with ir := s.mem.read s.pc.toNat } : State).fetchInstr (s.mem.read s.pc.toNat) = .error c ∧
      cycle s = .next (({ s with ir := s.mem.read s.pc.toNat } : State).raise c)) ∨
    (s.pc.toNat ≤ 255 ∧ ∃ i, ({ s with ir := s.mem.read s.pc.toNat } : State).fetchInstr (s.mem.read s.pc.toNat) = .ok i ∧
      cycle s = exec i { s with ir := s.mem.read s.pc.toNat }) := by
  by_cases hp : 255 < s.pc.toNat
  · exact .inl ⟨hp, by rw [cycle, fetchOpcode_error hp]⟩
  · have hp' : s.pc.toNat ≤ 255 := by omega
    cases hf : ({ s with ir := s.mem.read s.pc.toNat } : State).fetchInstr (s.mem.read s.pc.toNat) with
    | error c => exact .inr (.inl ⟨hp', c, rfl, by simp only [cycle, fetchOpcode_ok hp', runFetched, hf]⟩)
    | ok i => exact .inr (.inr ⟨hp', i, rfl, by simp only [cycle, fetchOpcode_ok hp', runFetched, hf]⟩)

/-- Which states have a step, and what the others answer. -/
theorem step_running {s : State} (h : s.run = .running) : step s = cycle s := by simp [step, h]

theorem step_halted {s : State} (h : s.run = .halted) : step s = .fault .halted := by simp [step, h]

theorem step_faulted {s : State} {r : FaultRecord} (h : s.run = .faulted r) : step s = .fault (.faulted r) := by
  simp [step, h]

end Sys2Proof.Machine
end

