-- ==== Sys2Proof/Laws/Cycle.lean ====
section
/-! SUPPORT. The fetch of a step tied to the decoder on the bytes at PC, and the first bad register operand. -/

namespace Sys2Proof.Machine

/-- The bytes at an address: three, or as many as memory still has there. -/
theorem bytesFrom_three (s : State) (a : Nat) : s.bytesFrom a 3 =
    if a + 2 < 256 then [s.mem.read a, s.mem.read (a + 1), s.mem.read (a + 2)]
    else if a + 1 < 256 then [s.mem.read a, s.mem.read (a + 1)]
    else if a < 256 then [s.mem.read a] else [] := by
  have range_three : List.range 3 = [0, 1, 2] := by decide
  simp only [State.bytesFrom, range_three, Config.memSize, List.filter]
  by_cases h2 : a + 2 < 256
  · have h1 : a + 1 < 256 := by omega
    have h0 : a < 256 := by omega
    simp [h2, h1, h0]
  · by_cases h1 : a + 1 < 256
    · have h0 : a < 256 := by omega
      simp [h2, h1, h0]
    · by_cases h0 : a < 256 <;> simp [h2, h1, h0]

/-- Inside memory there is a first byte at PC. -/
theorem bytesFrom_cons {s : State} (hp : s.pc.toNat ≤ 255) :
    ∃ rest, s.bytesFrom s.pc.toNat 3 = s.mem.read s.pc.toNat :: rest := by
  rw [bytesFrom_three]
  split
  · exact ⟨_, rfl⟩
  · split
    · exact ⟨_, rfl⟩
    · rw [if_pos (by omega)]
      exact ⟨_, rfl⟩

theorem bytesFrom_nil {s : State} (hp : 255 < s.pc.toNat) : s.bytesFrom s.pc.toNat 3 = [] := by
  rw [bytesFrom_three, if_neg (by omega), if_neg (by omega), if_neg (by omega)]

/-- The fault that a step takes for bytes that do not decode; `some` instruction otherwise. -/
def decodeFault (s : State) : Except DecodeError (Instr × List Byte) → Except FaultCause Instr
  | .ok (i, _) => .ok i
  | .error .noOpcode => .error (.boundsMemory s.pc.toNat)
  | .error (.unsupportedOpcode ir) => .error (.unsupportedOpcode ir)
  | .error (.missingOperand _ k) => .error (.boundsMemory (s.pc.toNat + k))

/-- The lookup and the operand fetch of a step do what the decoder does with the bytes at PC, whatever IR holds. -/
theorem fetchInstr_eq_decode (s s' : State) (hm : s'.mem = s.mem) (hpc : s'.pc = s.pc) (hp : s.pc.toNat ≤ 255) :
    s'.fetchInstr (s.mem.read s.pc.toNat) = decodeFault s (decode (s.bytesFrom s.pc.toNat 3)) := by
  have hl : ∀ k, k < 256 → s'.memRead (k : Nat) = .ok (s.mem.read k) := fun k hk => by rw [memRead_ok s' hk, hm]
  have he : ∀ k : Nat, 256 ≤ k → s'.memRead (k : Nat) = .error (.boundsMemory k) :=
    fun k hk => memRead_error s' (by omega)
  rw [bytesFrom_three]
  have c1 : ((s'.pc.toNat : Int) + 1) = ((s.pc.toNat + 1 : Nat) : Int) := by rw [hpc]; omega
  have c2 : ((s'.pc.toNat : Int) + 2) = ((s.pc.toNat + 2 : Nat) : Int) := by rw [hpc]; omega
  cases e : Config.opcodeMap.mnemonicOf (s.mem.read s.pc.toNat) with
  | none =>
    have hd : ∀ rest, decode (s.mem.read s.pc.toNat :: rest) = .error (.unsupportedOpcode (s.mem.read s.pc.toNat)) := by
      intro rest
      simp [decode, OpcodeMap.decode, OpcodeMap.lookup, e]
    have hf : s'.fetchInstr (s.mem.read s.pc.toNat) = .error (.unsupportedOpcode (s.mem.read s.pc.toNat)) := by
      simp [State.fetchInstr, lookup, OpcodeMap.lookup, e]
    rw [hf]
    by_cases h2 : s.pc.toNat + 2 < 256
    · rw [if_pos h2, hd]; rfl
    · by_cases h1 : s.pc.toNat + 1 < 256
      · rw [if_neg h2, if_pos h1, hd]; rfl
      · rw [if_neg h2, if_neg h1, if_pos (by omega), hd]; rfl
  | some k =>
    have hc : k.format.operandCount = 0 ∨ k.format.operandCount = 1 ∨ k.format.operandCount = 2 := by
      cases k <;> decide
    have hd : ∀ rest, decode (s.mem.read s.pc.toNat :: rest) =
        match takeOperands (s.mem.read s.pc.toNat) k.format.operandCount rest with
        | .error x => .error x
        | .ok (opa, opb, rest') => .ok (Instr.build k opa opb, rest') := by
      intro rest
      cases ht : takeOperands (s.mem.read s.pc.toNat) k.format.operandCount rest <;>
        simp [decode, OpcodeMap.decode, OpcodeMap.lookup, e, OpcodeMap.entry, ht]
    have hf : s'.fetchInstr (s.mem.read s.pc.toNat) = (do
        let x ← s'.fetchOperands k.format.operandCount
        .ok (Instr.build k x.1 x.2)) := by
      simp [State.fetchInstr, lookup, OpcodeMap.lookup, e, OpcodeMap.entry]
    rw [hf]
    by_cases h2 : s.pc.toNat + 2 < 256
    · rw [if_pos h2, hd]
      rcases hc with h | h | h <;> rw [h]
      · rfl
      · rw [State.fetchOperands, c1, hl _ (by omega)]; rfl
      · rw [State.fetchOperands, c1, c2, hl _ (by omega), ok_bind, hl _ (by omega)]; rfl
    · by_cases h1 : s.pc.toNat + 1 < 256
      · rw [if_neg h2, if_pos h1, hd]
        rcases hc with h | h | h <;> rw [h]
        · rfl
        · rw [State.fetchOperands, c1, hl _ (by omega)]; rfl
        · rw [State.fetchOperands, c1, c2, hl _ (by omega), ok_bind, he _ (by omega)]; rfl
      · rw [if_neg h2, if_neg h1, if_pos (by omega), hd]
        rcases hc with h | h | h <;> rw [h]
        · rfl
        · rw [State.fetchOperands, c1, he _ (by omega)]; rfl
        · rw [State.fetchOperands, c1, c2, he _ (by omega)]; rfl

/-- With a first byte there is an opcode. -/
theorem decode_cons_ne_noOpcode (ir : Byte) (rest : List Byte) : decode (ir :: rest) ≠ .error .noOpcode := by
  intro h
  simp only [decode, OpcodeMap.decode] at h
  split at h
  · simp at h
  · have ht : ∀ n, takeOperands ir n rest ≠ .error .noOpcode := by
      intro n
      rcases n with _ | _ | n <;> rcases rest with _ | ⟨x, _ | ⟨y, r⟩⟩ <;> simp [takeOperands]
    split at h
    · rename_i x hx
      simp at h
      subst h
      exact ht _ hx
    · simp at h

/-- The first bad register operand of one and of two operands. -/
theorem find_badIndex_one (a : Byte) :
    [a].find? (fun b => !Byte.isRegIndex b) = if a.toNat < 8 then none else some a := by
  by_cases h : a.toNat < 8 <;> simp [Byte.isRegIndex, h]

theorem find_badIndex_two (a b : Byte) :
    [a, b].find? (fun b => !Byte.isRegIndex b) =
      if a.toNat < 8 then (if b.toNat < 8 then none else some b) else some a := by
  by_cases h : a.toNat < 8 <;> by_cases h2 : b.toNat < 8 <;> simp [Byte.isRegIndex, h, h2]

theorem operandValue_reg {s : State} {b : Byte} (hb : b.toNat < 8) :
    s.operandValue b = s.readReg ⟨b.toNat, hb⟩ := by
  simp [State.operandValue, hb]

/-- Two states that hold the same registers and fields are equal. -/
theorem State.eq_of_fields {s t : State} (hr : ∀ j, s.readReg j = t.readReg j) (hp : s.pc = t.pc) (hf : s.fl = t.fl)
    (hi : s.ir = t.ir) (hm : s.mem = t.mem) (hn : s.run = t.run) (ho : s.out = t.out) : s = t := by
  cases s
  cases t
  cases hp
  cases hf
  cases hi
  cases hm
  cases hn
  cases ho
  congr
  apply Vector.ext
  intro i hi
  exact hr ⟨i, hi⟩

end Sys2Proof.Machine
end

