-- ==== Sys2Proof/Laws/Exec.lean ====
section
/-! SUPPORT. Inversion of the meanings: if an instruction answers `t`, then one of these cases holds. -/

namespace Sys2Proof.Machine

theorem next_inj {s t : State} (h : (Host.Outcome.next s : Host.Outcome State Fault Refusal) = .next t) : t = s := by
  cases h
  rfl

theorem execLdi_cases {a imm : Byte} {s t : State} (h : execLdi a imm s = .next t) :
    (∃ ha : a.toNat < 8, t = (s.writeReg ⟨a.toNat, ha⟩ imm.toNat).advance 2) ∨
    (¬ a.toNat < 8 ∧ t = s.raise (.boundsRegister a)) := by
  rcases checkReg_cases a with ⟨ha, e⟩ | ⟨ha, e⟩
  · rw [execLdi, e, ok_bind, complete_ok] at h
    exact .inl ⟨ha, next_inj h⟩
  · rw [execLdi, e, error_bind, complete_error] at h
    exact .inr ⟨ha, next_inj h⟩

theorem emitReg_cases {event : Byte → OutEvent} {a : Byte} {s t : State} (h : emitReg event a s = .next t) :
    (∃ ha : a.toNat < 8, t = (s.emit (event (s.readReg ⟨a.toNat, ha⟩))).advance 1) ∨
    (¬ a.toNat < 8 ∧ t = s.raise (.boundsRegister a)) := by
  rcases checkReg_cases a with ⟨ha, e⟩ | ⟨ha, e⟩
  · rw [emitReg_ok event s ha] at h
    exact .inl ⟨ha, next_inj h⟩
  · rw [emitReg, e, error_bind, complete_error] at h
    exact .inr ⟨ha, next_inj h⟩

theorem jumpIf_cases {taken : Bool} {a : Byte} {s t : State} (h : jumpIf taken a s = .next t) :
    (∃ ha : a.toNat < 8, t = if taken then s.setPc (s.readReg ⟨a.toNat, ha⟩) else s.advance 1) ∨
    (¬ a.toNat < 8 ∧ t = s.raise (.boundsRegister a)) := by
  rcases checkReg_cases a with ⟨ha, e⟩ | ⟨ha, e⟩
  · rw [jumpIf_ok taken s ha] at h
    exact .inl ⟨ha, next_inj h⟩
  · rw [jumpIf, e, error_bind, complete_error] at h
    exact .inr ⟨ha, next_inj h⟩

/-- A push of whatever `v` reads after the decrement, and the state it leaves. -/
def State.pushed (s : State) (v : Byte) : State :=
  { s.setSp ((s.sp.toNat - 1 : Nat) : Int) with mem := s.mem.write (s.sp.toNat - 1) v }

@[simp] theorem pushed_pc (s : State) (v : Byte) : (s.pushed v).pc = s.pc := rfl
@[simp] theorem pushed_fl (s : State) (v : Byte) : (s.pushed v).fl = s.fl := rfl
@[simp] theorem pushed_ir (s : State) (v : Byte) : (s.pushed v).ir = s.ir := rfl
@[simp] theorem pushed_mem (s : State) (v : Byte) : (s.pushed v).mem = s.mem.write (s.sp.toNat - 1) v := rfl
@[simp] theorem pushed_run (s : State) (v : Byte) : (s.pushed v).run = s.run := rfl
@[simp] theorem pushed_out (s : State) (v : Byte) : (s.pushed v).out = s.out := rfl

theorem pushed_readReg (s : State) (v : Byte) (j : RegIndex) :
    (s.pushed v).readReg j = (s.setSp ((s.sp.toNat - 1 : Nat) : Int)).readReg j := rfl

theorem execPush_ok {a : Byte} {s : State} (ha : a.toNat < 8) (hs : s.sp.toNat ≠ 0) :
    execPush a s =
      .next ((s.pushed ((s.setSp ((s.sp.toNat - 1 : Nat) : Int)).readReg ⟨a.toNat, ha⟩)).advance 1) := by
  rw [execPush, checkReg_ok ha, ok_bind, push_ok _ hs, ok_bind, complete_ok]
  rfl

theorem execPush_cases {a : Byte} {s t : State} (h : execPush a s = .next t) :
    (∃ ha : a.toNat < 8, s.sp.toNat ≠ 0 ∧
      t = (s.pushed ((s.setSp ((s.sp.toNat - 1 : Nat) : Int)).readReg ⟨a.toNat, ha⟩)).advance 1) ∨
    (a.toNat < 8 ∧ s.sp.toNat = 0 ∧ t = s.raise (.boundsMemory (-1))) ∨
    (¬ a.toNat < 8 ∧ t = s.raise (.boundsRegister a)) := by
  rcases checkReg_cases a with ⟨ha, e⟩ | ⟨ha, e⟩
  · by_cases hs : s.sp.toNat = 0
    · rw [execPush, e, ok_bind, push_error _ hs, error_bind, complete_error] at h
      exact .inr (.inl ⟨ha, hs, next_inj h⟩)
    · rw [execPush_ok ha hs] at h
      exact .inl ⟨ha, hs, next_inj h⟩
  · rw [execPush, e, error_bind, complete_error] at h
    exact .inr (.inr ⟨ha, next_inj h⟩)

theorem execPop_ok {a : Byte} {s : State} (ha : a.toNat < 8) :
    execPop a s = .next ((s.writeReg ⟨a.toNat, ha⟩ (s.mem.read s.sp.toNat).toNat).incSp.advance 1) := by
  rw [execPop, checkReg_ok ha, ok_bind, memRead_sp, ok_bind, complete_ok]

theorem execPop_cases {a : Byte} {s t : State} (h : execPop a s = .next t) :
    (∃ ha : a.toNat < 8,
      t = (s.writeReg ⟨a.toNat, ha⟩ (s.mem.read s.sp.toNat).toNat).incSp.advance 1) ∨
    (¬ a.toNat < 8 ∧ t = s.raise (.boundsRegister a)) := by
  rcases checkReg_cases a with ⟨ha, e⟩ | ⟨ha, e⟩
  · rw [execPop_ok ha] at h
    exact .inl ⟨ha, next_inj h⟩
  · rw [execPop, e, error_bind, complete_error] at h
    exact .inr ⟨ha, next_inj h⟩

theorem execCall_ok {a : Byte} {s : State} (ha : a.toNat < 8) (hp : s.pc.toNat + 1 + 1 ≤ 255) (hs : s.sp.toNat ≠ 0) :
    execCall a s = .next ((s.pushed (BitVec.ofNat 8 (s.pc.toNat + 1 + 1))).setPc
      ((s.pushed (BitVec.ofNat 8 (s.pc.toNat + 1 + 1))).readReg ⟨a.toNat, ha⟩)) := by
  rw [execCall, checkReg_ok ha, ok_bind, returnAddress_ok hp, ok_bind, push_ok _ hs, ok_bind, complete_ok]
  rfl

theorem execCall_cases {a : Byte} {s t : State} (h : execCall a s = .next t) :
    (∃ ha : a.toNat < 8, s.pc.toNat + 1 + 1 ≤ 255 ∧ s.sp.toNat ≠ 0 ∧
      t = (s.pushed (BitVec.ofNat 8 (s.pc.toNat + 1 + 1))).setPc
        ((s.pushed (BitVec.ofNat 8 (s.pc.toNat + 1 + 1))).readReg ⟨a.toNat, ha⟩)) ∨
    (a.toNat < 8 ∧ 255 < s.pc.toNat + 1 + 1 ∧ t = s.raise (.boundsMemory ((s.pc.toNat + 1 + 1 : Nat) : Int))) ∨
    (a.toNat < 8 ∧ s.pc.toNat + 1 + 1 ≤ 255 ∧ s.sp.toNat = 0 ∧ t = s.raise (.boundsMemory (-1))) ∨
    (¬ a.toNat < 8 ∧ t = s.raise (.boundsRegister a)) := by
  rcases checkReg_cases a with ⟨ha, e⟩ | ⟨ha, e⟩
  · by_cases hp : 255 < s.pc.toNat + 1 + 1
    · rw [execCall, e, ok_bind, returnAddress_error hp, error_bind, complete_error] at h
      exact .inr (.inl ⟨ha, hp, next_inj h⟩)
    · have hp' : s.pc.toNat + 1 + 1 ≤ 255 := by omega
      by_cases hs : s.sp.toNat = 0
      · rw [execCall, e, ok_bind, returnAddress_ok hp', ok_bind, push_error _ hs, error_bind, complete_error] at h
        exact .inr (.inr (.inl ⟨ha, hp', hs, next_inj h⟩))
      · rw [execCall_ok ha hp' hs] at h
        exact .inl ⟨ha, hp', hs, next_inj h⟩
  · rw [execCall, e, error_bind, complete_error] at h
    exact .inr (.inr (.inr ⟨ha, next_inj h⟩))

theorem execRet_ok (s : State) : execRet s = .next (s.incSp.setPc (s.mem.read s.sp.toNat)) := by
  rw [execRet, pop_ok, ok_bind, complete_ok]

/-- The two-operand ALU form: its own write and the default advance, the Arithmetic fault of DIV and MOD by 0, or the
Bounds fault of its first bad register operand. -/
theorem aluBinary_cases {op : AluOp} {a b : Byte} {s t : State} (h : aluBinary op a b s = .next t) :
    (∃ (ha : a.toNat < 8) (hb : b.toNat < 8) (r : AluOut),
      op.run (s.readReg ⟨a.toNat, ha⟩) (s.readReg ⟨b.toNat, hb⟩) = .ok r ∧
      t = (s.writeBack ⟨a.toNat, ha⟩ r).advance 2) ∨
    (∃ (_ : a.toNat < 8) (hb : b.toNat < 8), (op = .div ∨ op = .mod) ∧ s.readReg ⟨b.toNat, hb⟩ = 0 ∧
      t = s.raise (.arithmetic (Config.opcodeMap op.mnemonic))) ∨
    (∃ x, ((¬ a.toNat < 8 ∧ x = a) ∨ (a.toNat < 8 ∧ ¬ b.toNat < 8 ∧ x = b)) ∧ t = s.raise (.boundsRegister x)) := by
  rcases checkReg_cases a with ⟨ha, ea⟩ | ⟨ha, ea⟩
  · rcases checkReg_cases b with ⟨hb, eb⟩ | ⟨hb, eb⟩
    · rcases aluRun_cases op (s.readReg ⟨a.toNat, ha⟩) (s.readReg ⟨b.toNat, hb⟩) with
        ⟨-, hr⟩ | ⟨ho, hz, hr⟩ | ⟨-, -, hr⟩
      · rw [aluBinary_ok s ha hb hr] at h
        exact .inl ⟨ha, hb, _, hr, next_inj h⟩
      · rw [aluBinary_error s ha hb hr] at h
        exact .inr (.inl ⟨ha, hb, ho, hz, next_inj h⟩)
      · rw [aluBinary_ok s ha hb hr] at h
        exact .inl ⟨ha, hb, _, hr, next_inj h⟩
    · rw [aluBinary, ea, ok_bind, eb, error_bind, complete_error] at h
      exact .inr (.inr ⟨b, .inr ⟨ha, hb, rfl⟩, next_inj h⟩)
  · rw [aluBinary, ea, error_bind, complete_error] at h
    exact .inr (.inr ⟨a, .inl ⟨ha, rfl⟩, next_inj h⟩)

/-- The one-operand ALU form, for the operations that have it. -/
theorem aluUnary_cases {op : AluOp} (ho : op ≠ .div ∧ op ≠ .mod) {a : Byte} {s t : State}
    (h : aluUnary op a s = .next t) :
    (∃ (ha : a.toNat < 8) (r : AluOut), op.run (s.readReg ⟨a.toNat, ha⟩) 0 = .ok r ∧
      t = (s.writeBack ⟨a.toNat, ha⟩ r).advance 1) ∨
    (¬ a.toNat < 8 ∧ t = s.raise (.boundsRegister a)) := by
  rcases checkReg_cases a with ⟨ha, ea⟩ | ⟨ha, ea⟩
  · rcases aluRun_cases op (s.readReg ⟨a.toNat, ha⟩) 0 with ⟨-, hr⟩ | ⟨hd, -, -⟩ | ⟨-, -, hr⟩
    · rw [aluUnary_ok s ha hr] at h
      exact .inl ⟨ha, _, hr, next_inj h⟩
    · exact absurd hd (by simp [ho])
    · rw [aluUnary_ok s ha hr] at h
      exact .inl ⟨ha, _, hr, next_inj h⟩
  · rw [aluUnary, ea, error_bind, complete_error] at h
    exact .inr ⟨ha, next_inj h⟩

end Sys2Proof.Machine
end

