-- ==== Sys2Proof/Laws/Effect.lean ====
section
/-! SUPPORT. All that an instruction can do, said once: the inversion lemma of `exec`. -/

namespace Sys2Proof.Machine

/-- The effects an instruction can have on a state, one constructor per shape. -/
inductive Effect : Instr → State → State → Prop where
  /-- A fault taken. -/
  | raised (i : Instr) (s : State) (c : FaultCause) : Effect i s (s.raise c)
  | halted (s : State) : Effect .hlt s s.halt
  /-- One register written from its own instruction's table entry (LDI and the ALU instructions). -/
  | wrote (i : Instr) (s : State) (r : RegIndex) (v : Int) (n : Nat) (hn : n ≤ 2) (hr : r ∈ writtenRegs i) :
      Effect i s ((s.writeReg r v).advance n)
  | printedDec (a : Byte) (s : State) (v : Byte) : Effect (.prn a) s ((s.emit (.dec v)).advance 1)
  | printedChr (a : Byte) (s : State) (v : Byte) : Effect (.pra a) s ((s.emit (.chr v)).advance 1)
  | compared (a b : Byte) (s : State) (o : CompareOutcome) : Effect (.cmp a b) s ((s.setFlags o).advance 2)
  | jumped (i : Instr) (s : State) (target : Byte) : Effect i s (s.setPc target)
  | fellThrough (i : Instr) (s : State) : Effect i s (s.advance 1)
  | pushed (a : Byte) (s : State) (v : Byte) (hs : s.sp.toNat ≠ 0) : Effect (.push a) s ((s.pushed v).advance 1)
  | called (a : Byte) (s : State) (v target : Byte) (hs : s.sp.toNat ≠ 0) :
      Effect (.call a) s ((s.pushed v).setPc target)
  | popped (a : Byte) (s : State) (r : RegIndex) (v : Int) (hr : r ∈ writtenRegs (.pop a)) :
      Effect (.pop a) s ((s.writeReg r v).incSp.advance 1)
  | returned (s : State) (target : Byte) : Effect .ret s (s.incSp.setPc target)

theorem mem_namedReg {a : Byte} (ha : a.toNat < 8) : (⟨a.toNat, ha⟩ : RegIndex) ∈ namedReg a := by
  simp [namedReg, ha]

theorem effect_of_jumpIf {taken : Bool} {a : Byte} {s t : State} (i : Instr) (h : jumpIf taken a s = .next t) :
    Effect i s t := by
  rcases jumpIf_cases h with ⟨ha, rfl⟩ | ⟨-, rfl⟩
  · cases taken
    · exact .fellThrough i s
    · exact .jumped i s _
  · exact .raised i s _

theorem effect_of_aluBinary {op : AluOp} (ho : op ≠ .cmp) {a b : Byte} {s t : State} (i : Instr)
    (hi : writtenRegs i = namedReg a) (h : aluBinary op a b s = .next t) : Effect i s t := by
  rcases aluBinary_cases h with ⟨ha, hb, r, hr, rfl⟩ | ⟨-, -, -, -, rfl⟩ | ⟨x, -, rfl⟩
  · rcases aluRun_cases op (s.readReg ⟨a.toNat, ha⟩) (s.readReg ⟨b.toNat, hb⟩) with ⟨h1, -⟩ | ⟨-, -, h1⟩ | ⟨-, -, h1⟩
    · exact absurd h1 ho
    · rw [hr] at h1
      cases h1
    · rw [hr] at h1
      cases h1
      exact .wrote i s _ _ 2 (Nat.le_refl 2) (hi ▸ mem_namedReg ha)
  · exact .raised i s _
  · exact .raised i s _

theorem effect_of_aluUnary {op : AluOp} (ho : op ≠ .div ∧ op ≠ .mod) (hc : op ≠ .cmp) {a : Byte} {s t : State}
    (i : Instr) (hi : writtenRegs i = namedReg a) (h : aluUnary op a s = .next t) : Effect i s t := by
  rcases aluUnary_cases ho h with ⟨ha, r, hr, rfl⟩ | ⟨-, rfl⟩
  · rcases aluRun_cases op (s.readReg ⟨a.toNat, ha⟩) 0 with ⟨h1, -⟩ | ⟨-, -, h1⟩ | ⟨-, -, h1⟩
    · exact absurd h1 hc
    · rw [hr] at h1
      cases h1
    · rw [hr] at h1
      cases h1
      exact .wrote i s _ _ 1 (by decide) (hi ▸ mem_namedReg ha)
  · exact .raised i s _

theorem effect_of_cmp {a b : Byte} {s t : State} (h : aluBinary .cmp a b s = .next t) : Effect (.cmp a b) s t := by
  rcases aluBinary_cases h with ⟨ha, hb, r, hr, rfl⟩ | ⟨-, -, -, -, rfl⟩ | ⟨x, -, rfl⟩
  · cases hr
    exact .compared a b s _
  · exact .raised _ s _
  · exact .raised _ s _

/-- If an instruction answers `t`, its effect is one of those above. -/
theorem exec_effect {i : Instr} {s t : State} (h : exec i s = .next t) : Effect i s t := by
  cases i with
  | hlt =>
    rw [next_inj h]
    exact .halted s
  | ldi a imm =>
    rcases execLdi_cases h with ⟨ha, rfl⟩ | ⟨-, rfl⟩
    · exact .wrote _ s _ _ 2 (Nat.le_refl 2) (mem_namedReg ha)
    · exact .raised _ s _
  | prn a =>
    rcases emitReg_cases h with ⟨ha, rfl⟩ | ⟨-, rfl⟩
    · exact .printedDec a s _
    · exact .raised _ s _
  | pra a =>
    rcases emitReg_cases h with ⟨ha, rfl⟩ | ⟨-, rfl⟩
    · exact .printedChr a s _
    · exact .raised _ s _
  | push a =>
    rcases execPush_cases h with ⟨ha, hs, rfl⟩ | ⟨-, -, rfl⟩ | ⟨-, rfl⟩
    · exact .pushed a s _ hs
    · exact .raised _ s _
    · exact .raised _ s _
  | pop a =>
    rcases execPop_cases h with ⟨ha, rfl⟩ | ⟨-, rfl⟩
    · exact .popped a s _ _ (List.mem_append_left _ (mem_namedReg ha))
    · exact .raised _ s _
  | call a =>
    rcases execCall_cases h with ⟨ha, -, hs, rfl⟩ | ⟨-, -, rfl⟩ | ⟨-, -, -, rfl⟩ | ⟨-, rfl⟩
    · exact .called a s _ _ hs
    · exact .raised _ s _
    · exact .raised _ s _
    · exact .raised _ s _
  | ret =>
    rw [exec, execRet_ok] at h
    rw [next_inj h]
    exact .returned s _
  | jmp a => exact effect_of_jumpIf _ h
  | jeq a => exact effect_of_jumpIf _ h
  | jne a => exact effect_of_jumpIf _ h
  | jgt a => exact effect_of_jumpIf _ h
  | jlt a => exact effect_of_jumpIf _ h
  | jle a => exact effect_of_jumpIf _ h
  | jge a => exact effect_of_jumpIf _ h
  | cmp a b => exact effect_of_cmp h
  | add a b => exact effect_of_aluBinary (by decide) _ rfl h
  | sub a b => exact effect_of_aluBinary (by decide) _ rfl h
  | mul a b => exact effect_of_aluBinary (by decide) _ rfl h
  | div a b => exact effect_of_aluBinary (by decide) _ rfl h
  | mod a b => exact effect_of_aluBinary (by decide) _ rfl h
  | inc a => exact effect_of_aluUnary (by decide) (by decide) _ rfl h
  | dec a => exact effect_of_aluUnary (by decide) (by decide) _ rfl h
  | and a b => exact effect_of_aluBinary (by decide) _ rfl h
  | not a => exact effect_of_aluUnary (by decide) (by decide) _ rfl h
  | or a b => exact effect_of_aluBinary (by decide) _ rfl h
  | xor a b => exact effect_of_aluBinary (by decide) _ rfl h
  | shl a b => exact effect_of_aluBinary (by decide) _ rfl h
  | shr a b => exact effect_of_aluBinary (by decide) _ rfl h

end Sys2Proof.Machine
end

