-- ==== Sys2Proof/Laws/HostPort.lean ====
section
/-! SUPPORT. What `load` answers in each run state. -/

namespace Sys2Proof.Machine

theorem load_running {s : State} (h : s.run = .running) (bytes : List Byte) : s.load bytes = s.loadImage bytes := by
  simp [State.load, h]

theorem load_halted {s : State} (h : s.run = .halted) (bytes : List Byte) :
    s.load bytes = .refused .loadIntoStopped := by
  simp [State.load, h]

theorem load_faulted {s : State} {r : FaultRecord} (h : s.run = .faulted r) (bytes : List Byte) :
    s.load bytes = .refused .loadIntoStopped := by
  simp [State.load, h]

end Sys2Proof.Machine
end

