-- ==== Sys2Proof/Laws/PerInstr.lean ====
section
/-! SUPPORT. Facts about every instruction as syntax, one lemma per constructor. -/

namespace Sys2Proof.Laws.OperandShape

/-- The operand bytes of an instruction are as many as its format says, they rebuild it, and its register operands are
among them (30_encoding.md R45, R49). -/
def Statement (i : Instr) : Prop :=
  i.operands.length = i.mnemonic.format.operandCount ∧
  Instr.build i.mnemonic (i.operands.getD 0 0) (i.operands.getD 1 0) = i ∧
  i.registerOperands ⊆ i.operands

theorem hlt : Statement .hlt := ⟨rfl, rfl, by simp [Instr.registerOperands]⟩
theorem ldi (a imm : Byte) : Statement (.ldi a imm) := ⟨rfl, rfl, by simp [Instr.registerOperands, Instr.operands]⟩
theorem prn (a : Byte) : Statement (.prn a) := ⟨rfl, rfl, List.Subset.refl _⟩
theorem pra (a : Byte) : Statement (.pra a) := ⟨rfl, rfl, List.Subset.refl _⟩
theorem push (a : Byte) : Statement (.push a) := ⟨rfl, rfl, List.Subset.refl _⟩
theorem pop (a : Byte) : Statement (.pop a) := ⟨rfl, rfl, List.Subset.refl _⟩
theorem call (a : Byte) : Statement (.call a) := ⟨rfl, rfl, List.Subset.refl _⟩
theorem ret : Statement .ret := ⟨rfl, rfl, by simp [Instr.registerOperands]⟩
theorem jmp (a : Byte) : Statement (.jmp a) := ⟨rfl, rfl, List.Subset.refl _⟩
theorem jeq (a : Byte) : Statement (.jeq a) := ⟨rfl, rfl, List.Subset.refl _⟩
theorem jne (a : Byte) : Statement (.jne a) := ⟨rfl, rfl, List.Subset.refl _⟩
theorem jgt (a : Byte) : Statement (.jgt a) := ⟨rfl, rfl, List.Subset.refl _⟩
theorem jlt (a : Byte) : Statement (.jlt a) := ⟨rfl, rfl, List.Subset.refl _⟩
theorem jle (a : Byte) : Statement (.jle a) := ⟨rfl, rfl, List.Subset.refl _⟩
theorem jge (a : Byte) : Statement (.jge a) := ⟨rfl, rfl, List.Subset.refl _⟩
theorem cmp (a b : Byte) : Statement (.cmp a b) := ⟨rfl, rfl, List.Subset.refl _⟩
theorem add (a b : Byte) : Statement (.add a b) := ⟨rfl, rfl, List.Subset.refl _⟩
theorem sub (a b : Byte) : Statement (.sub a b) := ⟨rfl, rfl, List.Subset.refl _⟩
theorem mul (a b : Byte) : Statement (.mul a b) := ⟨rfl, rfl, List.Subset.refl _⟩
theorem div (a b : Byte) : Statement (.div a b) := ⟨rfl, rfl, List.Subset.refl _⟩
theorem mod (a b : Byte) : Statement (.mod a b) := ⟨rfl, rfl, List.Subset.refl _⟩
theorem inc (a : Byte) : Statement (.inc a) := ⟨rfl, rfl, List.Subset.refl _⟩
theorem dec (a : Byte) : Statement (.dec a) := ⟨rfl, rfl, List.Subset.refl _⟩
theorem and (a b : Byte) : Statement (.and a b) := ⟨rfl, rfl, List.Subset.refl _⟩
theorem not (a : Byte) : Statement (.not a) := ⟨rfl, rfl, List.Subset.refl _⟩
theorem or (a b : Byte) : Statement (.or a b) := ⟨rfl, rfl, List.Subset.refl _⟩
theorem xor (a b : Byte) : Statement (.xor a b) := ⟨rfl, rfl, List.Subset.refl _⟩
theorem shl (a b : Byte) : Statement (.shl a b) := ⟨rfl, rfl, List.Subset.refl _⟩
theorem shr (a b : Byte) : Statement (.shr a b) := ⟨rfl, rfl, List.Subset.refl _⟩

end Sys2Proof.Laws.OperandShape
end

