-- ==== Sys2Proof/Machine/Listing.lean ====
section
/-! DEFINITION. How programs are written down: the assembler's spelling of an instruction and the listing format of
program bytes (30_encoding.md R57, R59). The loader and the assembler themselves are outside the block (00_scope.md R4). -/

namespace Sys2Proof.Machine

/-- A mnemonic in capitals (R57). -/
def mnemonicText : Mnemonic → List Char
  | .hlt => ['H', 'L', 'T']
  | .ldi => ['L', 'D', 'I']
  | .prn => ['P', 'R', 'N']
  | .pra => ['P', 'R', 'A']
  | .push => ['P', 'U', 'S', 'H']
  | .pop => ['P', 'O', 'P']
  | .call => ['C', 'A', 'L', 'L']
  | .ret => ['R', 'E', 'T']
  | .jmp => ['J', 'M', 'P']
  | .jeq => ['J', 'E', 'Q']
  | .jne => ['J', 'N', 'E']
  | .jgt => ['J', 'G', 'T']
  | .jlt => ['J', 'L', 'T']
  | .jle => ['J', 'L', 'E']
  | .jge => ['J', 'G', 'E']
  | .cmp => ['C', 'M', 'P']
  | .add => ['A', 'D', 'D']
  | .sub => ['S', 'U', 'B']
  | .mul => ['M', 'U', 'L']
  | .div => ['D', 'I', 'V']
  | .mod => ['M', 'O', 'D']
  | .inc => ['I', 'N', 'C']
  | .dec => ['D', 'E', 'C']
  | .and => ['A', 'N', 'D']
  | .not => ['N', 'O', 'T']
  | .or => ['O', 'R']
  | .xor => ['X', 'O', 'R']
  | .shl => ['S', 'H', 'L']
  | .shr => ['S', 'H', 'R']

/-- A decimal digit. -/
def digitChar : Nat → Char
  | 0 => '0'
  | 1 => '1'
  | 2 => '2'
  | 3 => '3'
  | 4 => '4'
  | 5 => '5'
  | 6 => '6'
  | 7 => '7'
  | 8 => '8'
  | _ => '9'

/-- A byte as a decimal numeral (R57). -/
def byteText (b : Byte) : List Char := (decimalDigits b).map digitChar

/-- A register operand: `R` and its index in decimal (R57). -/
def registerText (b : Byte) : List Char := 'R' :: byteText b

/-- The spelling of a well-formed instruction: the mnemonic, then the operands in the order of the operand bytes, with a
comma between them (R57); an operand byte above 7 in a register position has no spelling. -/
def assembly (i : Instr) : Option (List Char) :=
  if i.wf then
    some (match i.mnemonic.format, i.operands with
      | .op1r, [a] => mnemonicText i.mnemonic ++ [' '] ++ registerText a
      | .op2rr, [a, b] => mnemonicText i.mnemonic ++ [' '] ++ registerText a ++ [','] ++ registerText b
      | .op2ri, [a, imm] => mnemonicText i.mnemonic ++ [' '] ++ registerText a ++ [','] ++ byteText imm
      | _, _ => mnemonicText i.mnemonic)
  else none

/-- What one line of a listing gives (R59). A token the format does not allow is `malformed`: the source does not say
what the loader does with it (log 26). -/
inductive ListingLine where
  | blank
  | byte (b : Byte)
  | malformed
  deriving DecidableEq, Repr

/-- Drop white space at both ends. -/
def trimSpace (cs : List Char) : List Char :=
  ((cs.dropWhile Char.isWhitespace).reverse.dropWhile Char.isWhitespace).reverse

/-- The number of a binary token, most significant bit first. -/
def binaryValue (cs : List Char) : Nat := cs.foldl (fun n c => 2 * n + (if c = '1' then 1 else 0)) 0

/-- Read one line: the comment from `#` on and the white space are stripped; an empty rest is a blank line, one to eight
binary digits are a byte (R59). -/
def readListingLine (line : List Char) : ListingLine :=
  match trimSpace (line.takeWhile (fun c => c != '#')) with
  | [] => .blank
  | c :: cs =>
    if (c :: cs).all (fun d => d == '0' || d == '1') && decide ((c :: cs).length ≤ 8) then
      .byte (BitVec.ofNat 8 (binaryValue (c :: cs)))
    else .malformed

/-- The bytes of a listing, in order; `none` if a line is malformed (R59). -/
def parseListing : List (List Char) → Option (List Byte)
  | [] => some []
  | l :: ls =>
    match readListingLine l with
    | .blank => parseListing ls
    | .byte b => (parseListing ls).map (b :: ·)
    | .malformed => none

end Sys2Proof.Machine
end

