-- ==== Sys2Proof/Tests/Slice0.lean ====
section
/-! SUPPORT. The model's own tests: ill-formed terms refused, words written out from the encodings, single steps with the
expected values of spec/95_test_vectors.md, and a witness for the hypotheses of every statement. -/

namespace Sys2Proof.Tests

open Sys2Proof Sys2Proof.Machine

/-- The reset state with some registers set, PC at `pc` and an image placed there. -/
def at_ (pc : Nat) (image : List Byte) (regs : List (RegIndex × Byte)) : State :=
  let s := regs.foldl (fun s p => s.writeReg p.1 p.2.toNat) State.reset
  { s with pc := BitVec.ofNat 9 pc, mem := Memory.writeBytes s.mem pc image }

/-- The state with one more memory cell set. -/
def withCell (a : Nat) (v : Byte) (s : State) : State := { s with mem := s.mem.write a v }

/-- The state with FL set. -/
def withFl (v : Byte) (s : State) : State := { s with fl := v }

/-- What a step answers, if it is a next state. -/
def stepped (s : State) : Option State :=
  match step s with
  | .next t => some t
  | .fault _ => none
  | .refused _ => none

/-- What an instruction answers, if it is a next state. -/
def done (i : Instr) (s : State) : Option State :=
  match exec i s with
  | .next t => some t
  | .fault _ => none
  | .refused _ => none

/-- One register and PC after a step. -/
def regPc (j : RegIndex) (s : State) : Option (Byte × Nat) := (stepped s).map (fun t => (t.readReg j, t.pc.toNat))

/-- The run state after a step. -/
def runOf (s : State) : Option RunState := (stepped s).map State.run

/-- FL and PC after a step. -/
def flPc (s : State) : Option (Byte × Nat) := (stepped s).map (fun t => (t.fl, t.pc.toNat))

/-- PC after a step. -/
def pcOf (s : State) : Option Nat := (stepped s).map (fun t => t.pc.toNat)

/-! ### Well-formedness: an operand byte above 7 in a register position is refused by the check -/

theorem test_wf_good : (Instr.ldi 7 255).wf = true ∧ (Instr.add 0 7).wf = true ∧ Instr.hlt.wf = true := by decide
theorem test_wf_bad_ldi : (Instr.ldi 8 0).wf = false := by decide
theorem test_wf_bad_first : (Instr.add 8 0).wf = false := by decide
theorem test_wf_bad_second : (Instr.add 0 9).wf = false := by decide
theorem test_wf_bad_push : (Instr.push 9).wf = false := by decide
theorem test_wf_bad_jump : (Instr.jeq 255).wf = false := by decide

/-! ### Decoding: every constructor, its word bit by bit (count, alu, setspc, id) from 30_encoding.md R46 and R52 -/

theorem test_decode_hlt : decode [0b00_0_0_0001] = .ok (.hlt, []) := rfl
theorem test_decode_ldi : decode [0b10_0_0_0010, 0b00000111, 0b10000001] = .ok (.ldi 7 0x81, []) := rfl
theorem test_decode_prn : decode [0b01_0_0_0111, 0b00000010] = .ok (.prn 2, []) := rfl
theorem test_decode_pra : decode [0b01_0_0_1000, 0b00000011] = .ok (.pra 3, []) := rfl
theorem test_decode_push : decode [0b01_0_0_0101, 0b00000100] = .ok (.push 4, []) := rfl
theorem test_decode_pop : decode [0b01_0_0_0110, 0b00000101] = .ok (.pop 5, []) := rfl
theorem test_decode_call : decode [0b01_0_1_0000, 0b00000001] = .ok (.call 1, []) := rfl
theorem test_decode_ret : decode [0b00_0_1_0001] = .ok (.ret, []) := rfl
theorem test_decode_jmp : decode [0b01_0_1_0100, 0b00000110] = .ok (.jmp 6, []) := rfl
theorem test_decode_jeq : decode [0b01_0_1_0101, 0b00000001] = .ok (.jeq 1, []) := rfl
theorem test_decode_jne : decode [0b01_0_1_0110, 0b00000010] = .ok (.jne 2, []) := rfl
theorem test_decode_jgt : decode [0b01_0_1_0111, 0b00000011] = .ok (.jgt 3, []) := rfl
theorem test_decode_jlt : decode [0b01_0_1_1000, 0b00000100] = .ok (.jlt 4, []) := rfl
theorem test_decode_jle : decode [0b01_0_1_1001, 0b00000101] = .ok (.jle 5, []) := rfl
theorem test_decode_jge : decode [0b01_0_1_1010, 0b00000110] = .ok (.jge 6, []) := rfl
theorem test_decode_cmp : decode [0b10_1_0_0111, 0b00000001, 0b00000010] = .ok (.cmp 1 2, []) := rfl
theorem test_decode_add : decode [0b10_1_0_0000, 0b00000010, 0b00000011] = .ok (.add 2 3, []) := rfl
theorem test_decode_sub : decode [0b10_1_0_0001, 0b00000011, 0b00000100] = .ok (.sub 3 4, []) := rfl
theorem test_decode_mul : decode [0b10_1_0_0010, 0b00000100, 0b00000101] = .ok (.mul 4 5, []) := rfl
theorem test_decode_div : decode [0b10_1_0_0011, 0b00000101, 0b00000110] = .ok (.div 5 6, []) := rfl
theorem test_decode_mod : decode [0b10_1_0_0100, 0b00000110, 0b00000111] = .ok (.mod 6 7, []) := rfl
theorem test_decode_inc : decode [0b01_1_0_0101, 0b00000111] = .ok (.inc 7, []) := rfl
theorem test_decode_dec : decode [0b01_1_0_0110, 0b00000001] = .ok (.dec 1, []) := rfl
theorem test_decode_and : decode [0b10_1_0_1000, 0b00000001, 0b00000111] = .ok (.and 1 7, []) := rfl
theorem test_decode_not : decode [0b01_1_0_1001, 0b00000010] = .ok (.not 2, []) := rfl
theorem test_decode_or : decode [0b10_1_0_1010, 0b00000010, 0b00000110] = .ok (.or 2 6, []) := rfl
theorem test_decode_xor : decode [0b10_1_0_1011, 0b00000011, 0b00000101] = .ok (.xor 3 5, []) := rfl
theorem test_decode_shl : decode [0b10_1_0_1100, 0b00000100, 0b00000001] = .ok (.shl 4 1, []) := rfl
theorem test_decode_shr : decode [0b10_1_0_1101, 0b00000101, 0b00000010] = .ok (.shr 5 2, []) := rfl

/-- The rejected bytes of 95_test_vectors.md 2.1. -/
theorem test_decode_rejects :
    [(0x00 : Byte), 0x02, 0x83, 0x52, 0xAE, 0xC5, 0xFF, 0xB0].map (fun b => decode [b, 0, 0]) =
    [(0x00 : Byte), 0x02, 0x83, 0x52, 0xAE, 0xC5, 0xFF, 0xB0].map (fun b => .error (.unsupportedOpcode b)) := rfl

theorem test_decode_truncated : decode [0x82, 1] = .error (.missingOperand 0x82 2) ∧
    decode [0x47] = .error (.missingOperand 0x47 1) ∧ decode [] = .error .noOpcode := ⟨rfl, rfl, rfl⟩

theorem test_decode_keeps_operand_above_7 : decode [0xA0, 0x00, 0x09] = .ok (.add 0 9, []) := rfl

/-- The fields of the opcode byte, the row 0x5A of 95_test_vectors.md 2.1. -/
theorem test_fields : Byte.countField 0x5A = 1 ∧ Byte.aluField 0x5A = false ∧ Byte.setsPcField 0x5A = true ∧
    Byte.idField 0x5A = 10 := by decide

theorem test_table_word : decodeTableWord 24 0x0100A7 = some (.cmp 0 1) ∧ decodeTableWord 8 0x11 = some .ret ∧
    decodeTableWord 8 0xFF82 = some (.ldi 0 0) ∧ decodeTableWord 8 0 = none := ⟨rfl, rfl, rfl, rfl⟩

/-- A table word placed at reset is what the next step runs. -/
theorem test_fetch_word : regPc 3 (State.reset.withFetchWord 24 0xFF0382) = some (0xFF, 3) := by decide

/-! ### Halt, load, output (95_test_vectors.md 2.2) -/

theorem test_M1_ldi : regPc 0 (at_ 0 [0x82, 0, 8] []) = some (8, 3) := by decide
theorem test_M4_ldi_bad_register :
    runOf (at_ 0 [0x82, 8, 1] []) = some (.faulted ⟨0, .boundsRegister 8⟩) := by decide
theorem test_M6_prn : (stepped (at_ 0 [0x47, 0] [(0, 255)])).map State.outputText = some [0x32, 0x35, 0x35, 0x0A] := by
  decide
theorem test_M7_prn_sp : (stepped (at_ 0 [0x47, 7] [])).map State.outputText = some [0x32, 0x34, 0x34, 0x0A] := by decide
theorem test_M8_pra : (stepped (at_ 0 [0x48, 0] [(0, 0x41)])).map State.outputText = some [0x41] := by decide
theorem test_M9_pra : (stepped (at_ 0 [0x48, 0] [(0, 0x0A)])).map State.out = some [.chr 0x0A] := by decide
theorem test_M10_hlt : (stepped (at_ 0 [1] [])).map (fun t => (t.run, t.pc.toNat)) = some (.halted, 0) := by decide

/-! ### The ALU (95_test_vectors.md 2.3) -/

theorem test_A1_add : regPc 0 (at_ 0 [0xA0, 0, 1] [(0, 200), (1, 100)]) = some (44, 3) := by decide
theorem test_A4_add_same : regPc 0 (at_ 0 [0xA0, 0, 0] [(0, 0x80)]) = some (0, 3) := by decide
theorem test_A5_sub : regPc 0 (at_ 0 [0xA1, 0, 1] [(0, 3), (1, 5)]) = some (254, 3) := by decide
theorem test_A8_sub_same : regPc 0 (at_ 0 [0xA1, 0, 0] [(0, 77)]) = some (0, 3) := by decide
theorem test_A10_mul : regPc 0 (at_ 0 [0xA2, 0, 1] [(0, 16), (1, 16)]) = some (0, 3) := by decide
theorem test_A11_mul : regPc 0 (at_ 0 [0xA2, 0, 1] [(0, 255), (1, 255)]) = some (1, 3) := by decide
theorem test_A13_div : regPc 0 (at_ 0 [0xA3, 0, 1] [(0, 7), (1, 2)]) = some (3, 3) := by decide
theorem test_A16_div_by_zero : (stepped (at_ 0 [0xA3, 0, 1] [(0, 7)])).map (fun t => (t.run, t.readReg 0, t.out)) =
    some (.faulted ⟨0, .arithmetic 0xA3⟩, 7, []) := by decide
theorem test_A20_mod : regPc 0 (at_ 0 [0xA4, 0, 1] [(0, 255), (1, 16)]) = some (15, 3) := by decide
theorem test_A21_mod_by_zero : runOf (at_ 0 [0xA4, 0, 1] []) = some (.faulted ⟨0, .arithmetic 0xA4⟩) := by decide
theorem test_A22_inc : regPc 0 (at_ 0 [0x65, 0] [(0, 255)]) = some (0, 2) := by decide
theorem test_A24_dec : regPc 0 (at_ 0 [0x66, 0] []) = some (255, 2) := by decide
theorem test_A25_dec_keeps_flags : flPc (withFl 0b010 (at_ 0 [0x66, 0] [(0, 1)])) = some (0b010, 2) := by decide
theorem test_A26_and : regPc 0 (at_ 0 [0xA8, 0, 1] [(0, 0xF0), (1, 0x3C)]) = some (0x30, 3) := by decide
theorem test_A27_or : regPc 0 (at_ 0 [0xAA, 0, 1] [(0, 0xF0), (1, 0x3C)]) = some (0xFC, 3) := by decide
theorem test_A28_xor : regPc 0 (at_ 0 [0xAB, 0, 1] [(0, 0xF0), (1, 0x3C)]) = some (0xCC, 3) := by decide
theorem test_A30_not : regPc 0 (at_ 0 [0x69, 0] [(0, 0x0F)]) = some (0xF0, 2) := by decide
theorem test_A32_shl : regPc 0 (at_ 0 [0xAC, 0, 1] [(0, 0x81), (1, 1)]) = some (0x02, 3) := by decide
theorem test_A36_shl_255 : regPc 0 (at_ 0 [0xAC, 0, 1] [(0, 1), (1, 255)]) = some (0, 3) := by decide
theorem test_A38_shr : regPc 0 (at_ 0 [0xAD, 0, 1] [(0, 0x81), (1, 7)]) = some (1, 3) := by decide
theorem test_A39_shr_8 : regPc 0 (at_ 0 [0xAD, 0, 1] [(0, 0xFF), (1, 8)]) = some (0, 3) := by decide
theorem test_A41_add_sp : regPc 7 (at_ 0 [0xA0, 7, 0] [(0, 0x10)]) = some (0x04, 3) := by decide

/-! ### Compare and jumps (95_test_vectors.md 2.4) -/

theorem test_B3_cmp_less : flPc (at_ 0 [0xA7, 0, 1] [(0, 3), (1, 5)]) = some (0b100, 3) := by decide
theorem test_B4_cmp_unsigned : flPc (at_ 0 [0xA7, 0, 1] [(0, 0xFF), (1, 1)]) = some (0b010, 3) := by decide
theorem test_B5_cmp_same : flPc (at_ 0 [0xA7, 0, 0] [(0, 9)]) = some (0b001, 3) := by decide
theorem test_B6_jmp : pcOf (at_ 0 [0x54, 2] [(2, 0x40)]) = some 0x40 := by decide
theorem test_B19_jmp_sp : pcOf (at_ 0 [0x54, 7] []) = some 0xF4 := by decide
theorem test_B7_jeq : pcOf (withFl 0b001 (at_ 0 [0x55, 2] [(2, 0x40)])) = some 0x40 := by decide
theorem test_B8_jeq_not : pcOf (withFl 0b100 (at_ 0 [0x55, 2] [(2, 0x40)])) = some 2 := by decide
theorem test_B9_jne_reset : pcOf (at_ 0 [0x56, 2] [(2, 0x40)]) = some 0x40 := by decide
theorem test_B10_jne_not : pcOf (withFl 0b001 (at_ 0 [0x56, 2] [(2, 0x40)])) = some 2 := by decide
theorem test_B11_jgt : pcOf (withFl 0b010 (at_ 0 [0x57, 2] [(2, 0x40)])) = some 0x40 := by decide
theorem test_B12_jgt_not : pcOf (withFl 0b001 (at_ 0 [0x57, 2] [(2, 0x40)])) = some 2 := by decide
theorem test_B13_jlt : pcOf (withFl 0b100 (at_ 0 [0x58, 2] [(2, 0x40)])) = some 0x40 := by decide
theorem test_B14_jle_equal : pcOf (withFl 0b001 (at_ 0 [0x59, 2] [(2, 0x40)])) = some 0x40 := by decide
theorem test_B15_jle_not : pcOf (withFl 0b010 (at_ 0 [0x59, 2] [(2, 0x40)])) = some 2 := by decide
theorem test_B16_jge : pcOf (withFl 0b010 (at_ 0 [0x5A, 2] [(2, 0x40)])) = some 0x40 := by decide
theorem test_B17_jge_not : pcOf (withFl 0b100 (at_ 0 [0x5A, 2] [(2, 0x40)])) = some 2 := by decide
theorem test_B18_jump_bad_register : runOf (at_ 0 [0x55, 9] []) = some (.faulted ⟨0, .boundsRegister 9⟩) := by decide

/-! ### The stack (95_test_vectors.md 2.5) -/

/-- The stack pointer, one cell and PC after a step. -/
def spCellPc (a : Nat) (s : State) : Option (Byte × Byte × Nat) :=
  (stepped s).map (fun t => (t.sp, t.mem.read a, t.pc.toNat))

theorem test_K1_push : spCellPc 0xF3 (at_ 0 [0x45, 0] [(0, 0x2A)]) = some (0xF3, 0x2A, 2) := by decide
theorem test_K3_push_sp : spCellPc 0xF3 (at_ 0 [0x45, 7] []) = some (0xF3, 0xF3, 2) := by decide
theorem test_K4_pop_sp : spCellPc 0xF3 (withCell 0xF3 0x20 (at_ 0 [0x46, 7] [(7, 0xF3)])) = some (0x21, 0x20, 2) := by
  decide
theorem test_K5_push_at_zero : (stepped (at_ 0 [0x45, 0] [(0, 9), (7, 0)])).map (fun t => (t.run, t.sp, t.mem.read 255)) =
    some (.faulted ⟨0, .boundsMemory (-1)⟩, 0, 0) := by decide
theorem test_K7_pop_wraps : (stepped (withCell 255 7 (at_ 0 [0x46, 0] [(7, 255)]))).map (fun t => (t.readReg 0, t.sp)) =
    some (7, 0) := by decide
theorem test_K8_call : spCellPc 0xF3 (at_ 3 [0x50, 1] [(1, 8)]) = some (0xF3, 5, 8) := by decide
theorem test_K9_ret : spCellPc 0xF3 (withCell 0xF3 5 (at_ 0x0B [0x11] [(7, 0xF3)])) = some (0xF4, 5, 5) := by decide
theorem test_K10_call_at_254 : runOf (at_ 254 [0x50, 1] [(1, 8)]) = some (.faulted ⟨254, .boundsMemory 256⟩) := by decide
theorem test_K12_call_sp : spCellPc 0xF3 (at_ 0 [0x50, 7] []) = some (0xF3, 2, 0xF3) := by decide
theorem test_K13_ret : spCellPc 0xF4 (at_ 0 [0x11] []) = some (0xF5, 0, 0) := by decide

/-! ### The edges of memory (95_test_vectors.md 2.6) -/

theorem test_F1_hlt_at_255 : (stepped (at_ 255 [1] [])).map (fun t => (t.run, t.pc.toNat)) = some (.halted, 255) := by
  decide
theorem test_F2_inc_at_254 : regPc 1 (at_ 254 [0x65, 1] []) = some (1, 256) := by decide
theorem test_F2_fetch_at_256 : (stepped (at_ 256 [] [])).map (fun t => (t.run, t.ir)) =
    some (.faulted ⟨256, .boundsMemory 256⟩, 0) := by decide
theorem test_F3_ldi_at_254 : (stepped (at_ 254 [0x82, 1] [])).map (fun t => (t.run, t.ir)) =
    some (.faulted ⟨254, .boundsMemory 256⟩, 0x82) := by decide
theorem test_F6_unknown_at_255 : runOf (at_ 255 [0xC5] []) = some (.faulted ⟨255, .unsupportedOpcode 0xC5⟩) := by decide
theorem test_F7_register_before_arithmetic :
    runOf (at_ 0 [0xA3, 9, 1] []) = some (.faulted ⟨0, .boundsRegister 9⟩) := by decide
theorem test_F8_register_before_stack :
    runOf (at_ 0 [0x45, 9] [(7, 0)]) = some (.faulted ⟨0, .boundsRegister 9⟩) := by decide

/-- HALTED and FAULTED have no step. -/
theorem test_stopped : step State.reset.halt = .fault .halted ∧
    step (State.reset.raise (.boundsMemory 256)) = .fault (.faulted ⟨0, .boundsMemory 256⟩) := ⟨rfl, rfl⟩

/-- An image goes into a RUNNING machine and not into a stopped one (10_state.md R23). -/
theorem test_load : (∃ t, State.reset.load [0x82, 0, 8] = .next t ∧ t.mem.read 0 = 0x82 ∧ t.mem.read 2 = 8) ∧
    State.reset.halt.load [1] = .refused .loadIntoStopped ∧
    (State.reset.raise (.unsupportedOpcode 0)).load [] = .refused .loadIntoStopped :=
  ⟨⟨_, rfl, by decide, by decide⟩, rfl, rfl⟩

/-- Write port (95_test_vectors.md S3): 256 stores 0, 511 stores 255, -1 stores 255. -/
theorem test_S3_write_port : (State.reset.writeReg 2 256).readReg 2 = 0 ∧ (State.reset.writeReg 2 511).readReg 2 = 255 ∧
    (State.reset.writeReg 2 (-1)).readReg 2 = 255 := by decide

/-- The canonical form: writing the value an unlisted cell reads as removes the entry. -/
theorem test_memory_canonical : Memory.write [(3, 1), (9, 2)] 3 0 = [(9, 2)] ∧
    Memory.write [(3, 1), (9, 2)] 5 7 = [(3, 1), (5, 7), (9, 2)] ∧ Memory.wf [(3, 1), (3, 2)] = false ∧
    Memory.wf [(3, 0)] = false ∧ Memory.wf [(256, 1)] = false := by decide

/-! ### The listing and the spelling (30_encoding.md R57, R59) -/

/-- The first line of the listing of program P1, a blank line and a comment. -/
theorem test_listing : parseListing ["10000010 # LDI R0,8".toList, "".toList, "# end".toList, "1".toList] =
    some [0x82, 1] := by decide
theorem test_listing_malformed : parseListing ["102".toList] = none := by decide
theorem test_assembly : assembly (.ldi 0 8) = some "LDI R0,8".toList ∧ assembly (.add 1 2) = some "ADD R1,R2".toList ∧
    assembly .hlt = some "HLT".toList ∧ assembly (.push 9) = none := by decide

/-! ### Witnesses: each shows that the hypotheses of the statement it is named after can be met -/

/-- Another opcode map that meets the source's constraints: ADD and SUB exchange their bytes. -/
def otherMap : OpcodeMap
  | .add => 0xA1
  | .sub => 0xA0
  | k => Config.opcodeMap k

theorem witness_DecodeUndoesEncodeForEveryValidMap : ∃ m : OpcodeMap, m.Valid := by
  refine ⟨otherMap, ?_, ?_, ?_, ?_, ?_⟩
  · intro k
    cases k <;> rfl
  · intro k
    cases k <;> rfl
  · intro k
    cases k <;> rfl
  · intro k k' h
    cases k <;> cases k' <;> first | rfl | (exact absurd h (by decide))
  · intro k k' h
    cases k <;> cases k' <;> first | exact absurd rfl h | decide

theorem witness_DecodedBytesAreTheEncoding : Config.opcodeMap.decode [0x82, 5, 255, 9] = .ok (.ldi 5 255, [9]) := rfl

theorem witness_LengthIsToldByTheOpcodeByte :
    decode (0xA0 :: [1, 2, 3]) = .ok (.add 1 2, [3]) ∧ lookup 0x01 = some ⟨.hlt, 0, false, none⟩ := ⟨rfl, rfl⟩

theorem witness_DispatchLookup :
    lookup 0xA3 = some ⟨.div, 2, false, some 3⟩ ∧ lookup 0xC5 = none ∧
    (at_ 255 [0xC5] []).run = .running ∧ (at_ 255 [0xC5] []).pc.toNat ≤ 255 ∧
    lookup ((at_ 255 [0xC5] []).mem.read (at_ 255 [0xC5] []).pc.toNat) = none := by decide

/-- The first and the last cell, and the integers on either side. -/
theorem witness_MemoryWriteSetsOneCell :
    (at_ 0 [1] []).mem.wf = true ∧ (0 ≤ (0 : Int) ∧ (0 : Int) ≤ 255) ∧ (0 ≤ (255 : Int) ∧ (255 : Int) ≤ 255) ∧
    ¬ (0 ≤ (-1 : Int) ∧ (-1 : Int) ≤ 255) ∧ ¬ (0 ≤ (256 : Int) ∧ (256 : Int) ≤ 255) := by decide

theorem witness_RegisterWritesAreMasked :
    (7 : Byte).toNat < 8 ∧ 8 ≤ (8 : Byte).toNat ∧ (at_ 0 [] [(7, 255)]).sp = 255 := by decide

theorem witness_CanonicalMemoriesThatReadAlikeAreEqual :
    Memory.wf [(0, 1), (255, 2)] = true ∧ ∀ a, a < 256 → Memory.read [(0, 1), (255, 2)] a = Memory.read [(0, 1), (255, 2)] a :=
  ⟨by decide, fun _ _ => rfl⟩

theorem witness_LdiLoadsItsImmediate : (7 : Byte).toNat < 8 := by decide
theorem witness_PrintsAppendOneEvent : (7 : Byte).toNat < 8 := by decide
theorem witness_PopLoadsFromTheStackPointer : (7 : Byte).toNat < 8 ∧ (0 : Byte).toNat < 8 ∧ (0 : Byte) ≠ 7 := by decide
theorem witness_CmpSetsExactlyOneFlag : (0 : Byte).toNat < 8 ∧ (7 : Byte).toNat < 8 := by decide
theorem witness_JmpGoesToItsRegister : (7 : Byte).toNat < 8 := by decide

theorem witness_ConditionalJumpsFollowTheirFlags : (7 : Byte).toNat < 8 ∧ ∃ s : State, s.fl = 0b010 ∧
    (Instr.jle 7, false) ∈ [(Instr.jeq 7, s.fl.getLsbD 0), (.jne 7, !s.fl.getLsbD 0), (.jgt 7, s.fl.getLsbD 1),
      (.jlt 7, s.fl.getLsbD 2), (.jle 7, s.fl.getLsbD 2 || s.fl.getLsbD 0), (.jge 7, s.fl.getLsbD 1 || s.fl.getLsbD 0)] :=
  ⟨by decide, withFl 0b010 State.reset, by decide⟩

/-- Stack pointer 1, the lowest that PUSH works with. -/
theorem witness_PushStoresBelowTheStackPointer :
    (at_ 0 [1] [(7, 1)]).mem.wf = true ∧ (at_ 0 [1] [(7, 1)]).sp ≠ 0 ∧ (7 : Byte).toNat < 8 := by decide

/-- PC 253, the last address whose return address fits, and the stack pointer 1. -/
theorem witness_CallPushesTheReturnAddress :
    (at_ 253 [0x50, 1] [(7, 1)]).mem.wf = true ∧ (at_ 253 [0x50, 1] [(7, 1)]).pc.toNat + 2 ≤ 255 ∧
    (at_ 253 [0x50, 1] [(7, 1)]).sp ≠ 0 ∧ (1 : Byte).toNat < 8 := by decide

theorem witness_PushThenPopMovesARegister :
    (at_ 0 [1] [(0, 5)]).mem.wf = true ∧ (at_ 0 [1] [(0, 5)]).sp ≠ 0 ∧ (0 : Byte).toNat < 7 ∧ (6 : Byte).toNat < 7 := by
  decide

/-- The state that CALL leaves is itself one in which RET may run. -/
theorem witness_CallThenRetReturns :
    (at_ 3 [0x50, 1] [(1, 8)]).mem.wf = true ∧ (at_ 3 [0x50, 1] [(1, 8)]).pc.toNat + 2 ≤ 255 ∧
    (at_ 3 [0x50, 1] [(1, 8)]).sp ≠ 0 ∧
    ∃ t, exec (.call 1) (at_ 3 [0x50, 1] [(1, 8)]) = .next t ∧
      ∃ u : State, u.sp = t.sp ∧ u.mem.read t.sp.toNat = t.mem.read t.sp.toNat :=
  ⟨by decide, by decide, by decide, _, rfl, _, rfl, rfl⟩

/-- The three clauses: PUSH at stack pointer 0, CALL at stack pointer 0 from the last address that fits, CALL from the
first that does not. -/
theorem witness_StackBoundsFaults :
    (at_ 0 [] [(7, 0)]).sp = 0 ∧ (at_ 253 [] [(7, 0)]).sp = 0 ∧ (at_ 253 [] [(7, 0)]).pc.toNat + 2 ≤ 255 ∧
    255 < (at_ 254 [] []).pc.toNat + 2 ∧ (7 : Byte).toNat < 8 := by decide

theorem witness_JumpsAfterCmpTestTheRelation :
    done (.cmp 0 1) (at_ 0 [] [(0, 3), (1, 5)]) = some (withFl 0b100 (at_ 3 [] [(0, 3), (1, 5)])) := by decide

theorem witness_AddSubMulWrapModulo256 : (0 : Byte).toNat < 8 ∧ (7 : Byte).toNat < 8 ∧ ∃ s : State,
    (Instr.mul 0 7, (272 : Int)) ∈ [(Instr.add 0 7, ((s.readReg 0).toNat : Int) + (s.readReg 7).toNat),
      (.sub 0 7, ((s.readReg 0).toNat : Int) - (s.readReg 7).toNat),
      (.mul 0 7, ((s.readReg 0).toNat : Int) * (s.readReg 7).toNat)] :=
  ⟨by decide, by decide, at_ 0 [] [(0, 16), (7, 17)], by decide⟩

theorem witness_DivModGiveQuotientAndRemainder : (at_ 0 [] [(7, 1)]).readReg ⟨(7 : Byte).toNat, by decide⟩ ≠ 0 := by
  decide

/-- Both clauses: a zero divisor, and a step to an Arithmetic fault from a machine that has not faulted. -/
theorem witness_DivisionByZeroFaults :
    (at_ 0 [] [(0, 7)]).readReg ⟨(1 : Byte).toNat, by decide⟩ = 0 ∧ (at_ 0 [] [(0, 7)]).NotFaulted ∧
    exec (.div 0 1) (at_ 0 [] [(0, 7)]) = .next ((at_ 0 [] [(0, 7)]).raise (.arithmetic 0xA3)) ∧
    ((at_ 0 [] [(0, 7)]).raise (.arithmetic 0xA3)).run = .faulted ⟨0, .arithmetic 0xA3⟩ :=
  ⟨by decide, fun _ => nofun, rfl, rfl⟩

theorem witness_BitwiseWorksBitByBit : (0 : Byte).toNat < 8 ∧ (7 : Byte).toNat < 8 ∧
    (Instr.xor 0 7, Bool.xor) ∈ [(Instr.and 0 7, fun x y => x && y), (.or 0 7, fun x y => x || y),
      (.xor 0 7, fun x y => Bool.xor x y)] :=
  ⟨by decide, by decide, .tail _ (.tail _ (.head _))⟩

theorem witness_ShiftsUseTheWholeCount : 8 ≤ ((at_ 0 [] [(1, 8)]).readReg ⟨(1 : Byte).toNat, by decide⟩).toNat := by
  decide

theorem witness_UnaryAluWorksInPlace : (7 : Byte).toNat < 8 ∧ ∃ s : State,
    (Instr.dec 7, (0xF3 : Int)) ∈ [(Instr.inc 7, ((s.readReg 7).toNat : Int) + 1),
      (.dec 7, ((s.readReg 7).toNat : Int) - 1), (.not 7, 255 - ((s.readReg 7).toNat : Int))] :=
  ⟨by decide, State.reset, by decide⟩

theorem witness_RegisterOperandAbove7Faults :
    (Instr.add 7 8).registerOperands = [7] ++ 8 :: [] ∧ (∀ x ∈ [(7 : Byte)], x.toNat ≤ 7) ∧ 8 ≤ (8 : Byte).toNat := by
  decide

/-- One instruction with a fault of its own, and one without. -/
theorem witness_InstructionsFaultExactlyByPriority :
    (at_ 0 [] [(7, 0)]).execFault (.push 0) = some (.boundsMemory (-1)) ∧ State.reset.execFault (.push 0) = none := by
  decide

/-- Both clauses, the first at each level of the priority list. -/
theorem witness_StepsFaultExactlyByPriority :
    State.reset.run = .running ∧
    (at_ 256 [] []).stepFault = some (.boundsMemory 256) ∧ (at_ 255 [0xC5] []).stepFault = some (.unsupportedOpcode 0xC5) ∧
    (at_ 254 [0x82, 1] []).stepFault = some (.boundsMemory 256) ∧ (at_ 0 [0xA3, 9, 1] []).stepFault = some (.boundsRegister 9) ∧
    (at_ 0 [0xA3, 0, 1] []).stepFault = some (.arithmetic 0xA3) ∧ (at_ 0 [0xA0, 0, 1] []).stepFault = none := by decide

theorem witness_FaultsArePrecise :
    step (at_ 256 [] []) = .next ((at_ 256 [] []).raise (.boundsMemory 256)) ∧
    ((at_ 256 [] []).raise (.boundsMemory 256)).run = .faulted ⟨256, .boundsMemory 256⟩ := ⟨rfl, rfl⟩

/-- A step that faults, as the hypotheses of the statement ask. -/
theorem witness_UnsupportedAluOperationIsUnreachable :
    step State.reset = .next (State.reset.raise (.unsupportedOpcode 0)) ∧
    (State.reset.raise (.unsupportedOpcode 0)).run = .faulted ⟨0, .unsupportedOpcode 0⟩ := ⟨rfl, rfl⟩

/-- A well-formed instruction and an ill-formed one, the second at the last address where it fits. -/
theorem witness_StepRunsTheDecodedInstruction :
    (at_ 0 [0x82, 3, 9] []).run = .running ∧
    decode ((at_ 0 [0x82, 3, 9] []).bytesFrom (at_ 0 [0x82, 3, 9] []).pc.toNat 3) = .ok (.ldi 3 9, []) ∧
    (at_ 254 [0x45, 9] []).run = .running ∧
    decode ((at_ 254 [0x45, 9] []).bytesFrom (at_ 254 [0x45, 9] []).pc.toNat 3) = .ok (.push 9, []) :=
  ⟨rfl, rfl, rfl, rfl⟩

/-- The three clauses: PC 256; PC 255 with a step; a write of the cell at PC 255 and a step after it. -/
theorem witness_FetchReadsTheCellAtPc :
    ((at_ 256 [] []).run = .running ∧ 255 < (at_ 256 [] []).pc.toNat) ∧
    ((at_ 255 [1] []).pc.toNat ≤ 255 ∧ ∃ t, step (at_ 255 [1] []) = .next t) ∧
    ((at_ 255 [] []).mem.wf = true ∧ (at_ 255 [] []).memWrite (at_ 255 [] []).pc.toNat 1 = .ok (at_ 255 [1] []) ∧
      ∃ u, step (at_ 255 [1] []) = .next u) :=
  ⟨by decide, ⟨by decide, _, rfl⟩, by decide, rfl, _, rfl⟩

/-- PUSH R0 with the stack just above the next instruction: the pushed byte is HLT. -/
theorem witness_PushedCodeIsFetchedNext :
    (at_ 0 [0x45, 0] [(0, 1), (7, 3)]).mem.wf = true ∧
    decode ((at_ 0 [0x45, 0] [(0, 1), (7, 3)]).bytesFrom (at_ 0 [0x45, 0] [(0, 1), (7, 3)]).pc.toNat 3) = .ok (.push 0, [0]) ∧
    (at_ 0 [0x45, 0] [(0, 1), (7, 3)]).sp.toNat - 1 = (at_ 0 [0x45, 0] [(0, 1), (7, 3)]).pc.toNat + 2 ∧
    ∃ t, step (at_ 0 [0x45, 0] [(0, 1), (7, 3)]) = .next t ∧ ∃ u, step t = .next u ∧ u.run = .halted :=
  ⟨by decide, rfl, by decide, _, rfl, _, rfl, rfl⟩

theorem witness_DefaultAdvanceDoesNotWrap : (at_ 255 [] []).pc.toNat ≤ 255 := by decide

/-- A step that halts, a step that faults, and a stopped machine. -/
theorem witness_RunStateTransitions :
    runOf (at_ 0 [1] []) = some .halted ∧ runOf (at_ 0 [0] []) = some (.faulted ⟨0, .unsupportedOpcode 0⟩) ∧
    State.reset.halt.run ≠ .running := by decide

theorem witness_OnlyCmpWritesFlags :
    ∃ t, exec (.cmp 0 0) State.reset = .next t ∧ t.fl ≠ State.reset.fl := ⟨_, rfl, by decide⟩

theorem witness_OnlyConditionalJumpsReadFlags :
    isConditionalJump (.cmp 0 1) = false ∧ ∃ t, exec (.cmp 0 1) State.reset = .next t := ⟨rfl, _, rfl⟩

theorem witness_OnlyPushAndCallWriteMemory :
    ∃ t, exec (.push 7) State.reset = .next t ∧ t.mem.read 0xF3 ≠ State.reset.mem.read 0xF3 := ⟨_, rfl, by decide⟩

theorem witness_RegistersWrittenAreThoseOfTheTable :
    ∃ t, exec (.ldi 6 1) State.reset = .next t ∧ t.readReg 6 ≠ State.reset.readReg 6 := ⟨_, rfl, by decide⟩

/-- R5 written by LDI R5 and R6 left alone by it; and R5 and R0 renamed to each other. -/
theorem witness_NoRegisterButTheStackPointerIsSpecial :
    (∃ t, (5 : RegIndex) ≠ Config.spIndex ∧ exec (.ldi 5 1) State.reset = .next t ∧
      t.readReg 5 ≠ State.reset.readReg 5) ∧
    ((6 : RegIndex) ≠ Config.spIndex ∧ ∀ b ∈ (Instr.ldi 5 1).registerOperands, b.toNat ≠ (6 : RegIndex).val) ∧
    Equiv.swap (5 : Fin 8) 0 Config.spIndex = Config.spIndex :=
  ⟨⟨_, by decide, rfl, by decide⟩, by decide, by decide⟩

theorem witness_OutputGrowsOnlyByPrints :
    ∃ t, step (at_ 0 [0x47, 7] []) = .next t ∧ t.out ≠ (at_ 0 [0x47, 7] []).out := ⟨_, rfl, by decide⟩

theorem witness_TraceAndOldIrAreNeverRead :
    (at_ 255 [1] []).pc.toNat ≤ 255 ∧ ∃ t, step (at_ 255 [1] []) = .next t := ⟨by decide, _, rfl⟩

/-- From 254 to 256, and at 256. -/
theorem witness_PcNeverPasses256 :
    ((at_ 254 [0x65, 1] []).pc.toNat ≤ 256 ∧ ∃ t, step (at_ 254 [0x65, 1] []) = .next t) ∧
    (at_ 256 [] []).pc.toNat ≤ 256 ∧ ∃ t, step (at_ 256 [] []) = .next t :=
  ⟨⟨by decide, _, rfl⟩, by decide, _, rfl⟩

/-- A state with a program, a flag and PC 253, and its step. -/
theorem witness_EveryStepKeepsTheInvariant :
    (withFl 0b100 (at_ 253 [0x50, 1] [])).Inv ∧ ∃ t, step (withFl 0b100 (at_ 253 [0x50, 1] [])) = .next t :=
  ⟨⟨by decide, by decide, .inr (.inr (.inr rfl)), fun _ h => by cases h⟩, _, rfl⟩

theorem witness_LoadCopiesTheImage :
    State.reset.run = .running ∧ State.reset.mem.wf = true ∧ (List.replicate 256 (1 : Byte)).length ≤ 256 ∧
    256 < (List.replicate 257 (1 : Byte)).length ∧ State.reset.halt.run ≠ .running :=
  ⟨rfl, rfl, Nat.le_of_eq List.length_replicate,
    Nat.lt_of_lt_of_eq (Nat.lt_succ_self 256) List.length_replicate.symm, by decide⟩

/-- A program of one HLT: its run ends after one step, cleanly. -/
theorem witness_TheWholeRunIsFixed : RunsTo (at_ 0 [1] []) (at_ 0 [1] []).runOnce ∧ (at_ 0 [1] []).runOnce.run ≠ .running :=
  ⟨⟨1, rfl, by decide⟩, by decide⟩

theorem witness_CleanHaltNeverFaulted : HaltsCleanly (at_ 0 [1] []) :=
  ⟨(at_ 0 [1] []).runOnce, ⟨1, rfl, by decide⟩, rfl⟩

end Sys2Proof.Tests
end

section
/-! O49 (10_state.md R13). One simulation serves both halves of "no register but the stack pointer is special": a change
of the register file that the instruction cannot see, up to a renaming of the registers, commutes with every operation
and so with every instruction. Renaming the file is such a change, and so is another value in a register that the
instruction does not name. -/

namespace Sys2Proof.Machine

/-! ### A change of the register file -/

/-- A state with its register file changed by `g`, and nothing else. -/
def State.mapRegs (g : Vector Byte 8 → Vector Byte 8) (s : State) : State := { s with regs := g s.regs }

/-- The register file with its contents moved: register `p j` holds what register `j` held. -/
def movedRegs (p : Equiv.Perm (Fin 8)) (r : Vector Byte 8) : Vector Byte 8 := Vector.ofFn (fun j => r[(p.symm j).val])

theorem permuteRegs_eq_mapRegs (s : State) (p : Equiv.Perm (Fin 8)) : s.permuteRegs p = s.mapRegs (movedRegs p) := rfl

theorem writeReg_eq_mapRegs (s : State) (j : RegIndex) (v : Int) :
    s.writeReg j v = s.mapRegs (fun r => r.set j.val (mask8 v)) := rfl

/-- The answer of an instruction with the register file of its next state changed. -/
def mapNext (g : Vector Byte 8 → Vector Byte 8) :
    Host.Outcome State Fault Refusal → Host.Outcome State Fault Refusal
  | .next t => .next (t.mapRegs g)
  | .fault r => .fault r
  | .refused r => .refused r

section
variable (g : Vector Byte 8 → Vector Byte 8) (s : State)

@[simp] theorem mapRegs_memRead (a : Int) : (s.mapRegs g).memRead a = s.memRead a := rfl
@[simp] theorem mapRegs_returnAddress (n : Nat) : (s.mapRegs g).returnAddress n = s.returnAddress n := rfl
@[simp] theorem mapRegs_advance (n : Nat) : (s.mapRegs g).advance n = (s.advance n).mapRegs g := rfl
@[simp] theorem mapRegs_setPc (t : Byte) : (s.mapRegs g).setPc t = (s.setPc t).mapRegs g := rfl
@[simp] theorem mapRegs_emit (e : OutEvent) : (s.mapRegs g).emit e = (s.emit e).mapRegs g := rfl

theorem mapRegs_memWrite (a : Int) (v : Byte) : (s.mapRegs g).memWrite a v = (s.memWrite a v).map (State.mapRegs g) := by
  unfold State.memWrite
  split <;> rfl

/-- Ending an instruction commutes with the change: a fault is taken in the changed start state. -/
theorem mapRegs_complete (r : Except FaultCause State) :
    (s.mapRegs g).complete (r.map (State.mapRegs g)) = mapNext g (s.complete r) := by
  cases r <;> rfl

end

/-! ### Renamed operand bytes -/

theorem checkReg_renameByte_ok (p : Equiv.Perm (Fin 8)) {b : Byte} (h : b.toNat < 8) :
    checkReg (renameByte p b) = .ok (p ⟨b.toNat, h⟩) := by
  have hn : (renameByte p b).toNat = (p ⟨b.toNat, h⟩).val := by
    simp only [renameByte, h, dite_true, BitVec.toNat_ofNat]
    omega
  rw [checkReg_ok (hn ▸ (p ⟨b.toNat, h⟩).isLt)]
  exact congrArg Except.ok (Fin.ext hn)

theorem renameByte_of_not_index (p : Equiv.Perm (Fin 8)) {b : Byte} (h : ¬ b.toNat < 8) : renameByte p b = b :=
  dif_neg h

/-- The check of a register operand: what follows it need only agree on the registers that the byte names. -/
theorem checkReg_bind_mapRegs {g : Vector Byte 8 → Vector Byte 8} {p : Equiv.Perm (Fin 8)} {N : Set RegIndex}
    {b : Byte} (hb : ∀ j ∈ namedReg b, j ∈ N) {f f' : RegIndex → Except FaultCause State}
    (hf : ∀ j ∈ N, f' (p j) = (f j).map (State.mapRegs g)) :
    (checkReg (renameByte p b) >>= f') = (checkReg b >>= f).map (State.mapRegs g) := by
  rcases checkReg_cases b with ⟨h, e⟩ | ⟨h, e⟩
  · rw [checkReg_renameByte_ok p h, e, ok_bind, ok_bind]
    exact hf _ (hb _ (mem_namedReg h))
  · rw [renameByte_of_not_index p h, e]
    rfl

@[simp] theorem renameByte_refl (b : Byte) : renameByte (Equiv.refl (Fin 8)) b = b := by
  unfold renameByte
  split <;> simp

theorem renameInstr_refl (i : Instr) : renameInstr (Equiv.refl (Fin 8)) i = i := by
  cases i <;> simp only [renameInstr, renameByte_refl]

/-! ### A change that is not seen -/

/-- As far as the registers of `N` go, `g` does no more than give register `j` the name `p j`. -/
structure Relabels (g : Vector Byte 8 → Vector Byte 8) (p : Equiv.Perm (Fin 8)) (N : Set RegIndex) : Prop where
  read : ∀ (s : State) (j : RegIndex), j ∈ N → (s.mapRegs g).readReg (p j) = s.readReg j
  write : ∀ (s : State) (j : RegIndex) (v : Int), j ∈ N → (s.mapRegs g).writeReg (p j) v = (s.writeReg j v).mapRegs g
  sp_mem : Config.spIndex ∈ N
  sp_fixed : p Config.spIndex = Config.spIndex

/-- Moving the contents of the whole file, with the stack pointer left in its place. -/
theorem relabels_movedRegs {p : Equiv.Perm (Fin 8)} (hp : p Config.spIndex = Config.spIndex) :
    Relabels (movedRegs p) p Set.univ where
  read s j _ := by simp [State.mapRegs, State.readReg, movedRegs]
  write s j v _ := by
    have h : (movedRegs p s.regs).set (p j).val (mask8 v) = movedRegs p (s.regs.set j.val (mask8 v)) := by
      ext k hk
      have hj : (p j).val = k ↔ j.val = (p.symm ⟨k, hk⟩).val := by
        rw [← Fin.ext_iff, Equiv.eq_symm_apply, Fin.ext_iff]
      simp only [movedRegs, Vector.getElem_set, Vector.getElem_ofFn, hj]
    simp only [State.mapRegs, State.writeReg, h]
  sp_mem := Set.mem_univ _
  sp_fixed := hp

/-- Another value in a register `j` is not seen in the others. -/
theorem relabels_set {j : RegIndex} (hj : j ≠ Config.spIndex) (v : Byte) :
    Relabels (fun r => r.set j.val v) (Equiv.refl (Fin 8)) {k | k ≠ j} where
  read s k hk := by
    have hne : j.val ≠ k.val := fun e => hk (Fin.ext e.symm)
    simp [State.mapRegs, State.readReg, Vector.getElem_set_ne, hne]
  write s k w hk := by
    have hne : j.val ≠ k.val := fun e => hk (Fin.ext e.symm)
    simp only [State.mapRegs, State.writeReg, Equiv.refl_apply, Vector.set_comm _ _ hne]
  sp_mem := hj.symm
  sp_fixed := rfl

/-! ### The operations of an instruction commute with it -/

section
variable {g : Vector Byte 8 → Vector Byte 8} {p : Equiv.Perm (Fin 8)} {N : Set RegIndex}
variable (hg : Relabels g p N)
include hg

theorem Relabels.sp_mapRegs (s : State) : (s.mapRegs g).sp = s.sp := by
  have h := hg.read s _ hg.sp_mem
  rwa [hg.sp_fixed] at h

theorem Relabels.setSp_mapRegs (s : State) (v : Int) : (s.mapRegs g).setSp v = (s.setSp v).mapRegs g := by
  have h := hg.write s _ v hg.sp_mem
  rwa [hg.sp_fixed] at h

theorem Relabels.incSp_mapRegs (s : State) : (s.mapRegs g).incSp = s.incSp.mapRegs g := by
  simp only [State.incSp, hg.sp_mapRegs, hg.setSp_mapRegs]

theorem Relabels.writeBack_mapRegs (s : State) {j : RegIndex} (hj : j ∈ N) (r : AluOut) :
    (s.mapRegs g).writeBack (p j) r = (s.writeBack j r).mapRegs g := by
  cases r with
  | result r => exact hg.write s j _ hj
  | compare o => rfl

/-- A push of a value that is the same after the change. -/
theorem Relabels.push_mapRegs (s : State) {v v' : State → Byte} (hv : ∀ u, v' (u.mapRegs g) = v u) :
    (s.mapRegs g).push v' = (s.push v).map (State.mapRegs g) := by
  simp only [State.push, State.pushAddress, hg.sp_mapRegs]
  split
  · rfl
  · simp only [ok_bind, hg.setSp_mapRegs, hv, mapRegs_memWrite]

/-! ### The shapes of the instructions -/

theorem Relabels.jumpIf_mapRegs {a : Byte} (ha : ∀ j ∈ namedReg a, j ∈ N) (taken : Bool) (s : State) :
    jumpIf taken (renameByte p a) (s.mapRegs g) = mapNext g (jumpIf taken a s) := by
  rw [jumpIf, jumpIf, ← mapRegs_complete, checkReg_bind_mapRegs ha]
  intro j hj
  cases taken
  · rfl
  · simp [hg.read s j hj, Except.map]

theorem Relabels.emitReg_mapRegs {a : Byte} (ha : ∀ j ∈ namedReg a, j ∈ N) (event : Byte → OutEvent) (s : State) :
    emitReg event (renameByte p a) (s.mapRegs g) = mapNext g (emitReg event a s) := by
  rw [emitReg, emitReg, ← mapRegs_complete, checkReg_bind_mapRegs ha]
  intro j hj
  simp [hg.read s j hj, Except.map]

theorem Relabels.aluBinary_mapRegs {a b : Byte} (ha : ∀ j ∈ namedReg a, j ∈ N) (hb : ∀ j ∈ namedReg b, j ∈ N)
    (op : AluOp) (s : State) :
    aluBinary op (renameByte p a) (renameByte p b) (s.mapRegs g) = mapNext g (aluBinary op a b s) := by
  rw [aluBinary, aluBinary, ← mapRegs_complete, checkReg_bind_mapRegs ha]
  refine fun j hj => checkReg_bind_mapRegs hb fun k hk => ?_
  rw [hg.read s j hj, hg.read s k hk]
  cases aluApply op.selector (s.readReg j) (s.readReg k) with
  | error c => rfl
  | ok r => simp [hg.writeBack_mapRegs s hj, Except.map]

theorem Relabels.aluUnary_mapRegs {a : Byte} (ha : ∀ j ∈ namedReg a, j ∈ N) (op : AluOp) (s : State) :
    aluUnary op (renameByte p a) (s.mapRegs g) = mapNext g (aluUnary op a s) := by
  rw [aluUnary, aluUnary, ← mapRegs_complete, checkReg_bind_mapRegs ha]
  intro j hj
  rw [hg.read s j hj]
  cases aluApply op.selector (s.readReg j) 0 with
  | error c => rfl
  | ok r => simp [hg.writeBack_mapRegs s hj, Except.map]

theorem Relabels.execLdi_mapRegs {a : Byte} (ha : ∀ j ∈ namedReg a, j ∈ N) (imm : Byte) (s : State) :
    execLdi (renameByte p a) imm (s.mapRegs g) = mapNext g (execLdi a imm s) := by
  rw [execLdi, execLdi, ← mapRegs_complete, checkReg_bind_mapRegs ha]
  intro j hj
  simp only [hg.write s j _ hj, mapRegs_advance, Except.map]

theorem Relabels.execPush_mapRegs {a : Byte} (ha : ∀ j ∈ namedReg a, j ∈ N) (s : State) :
    execPush (renameByte p a) (s.mapRegs g) = mapNext g (execPush a s) := by
  rw [execPush, execPush, ← mapRegs_complete, checkReg_bind_mapRegs ha]
  intro j hj
  rw [hg.push_mapRegs s (v := fun u => u.readReg j) (fun u => hg.read u j hj)]
  cases s.push (fun u => u.readReg j) <;> rfl

theorem Relabels.execPop_mapRegs {a : Byte} (ha : ∀ j ∈ namedReg a, j ∈ N) (s : State) :
    execPop (renameByte p a) (s.mapRegs g) = mapNext g (execPop a s) := by
  rw [execPop, execPop, ← mapRegs_complete, checkReg_bind_mapRegs ha]
  intro j hj
  simp only [hg.sp_mapRegs, mapRegs_memRead, memRead_sp, ok_bind, hg.write s j _ hj, hg.incSp_mapRegs,
    mapRegs_advance, Except.map]

theorem Relabels.execCall_mapRegs {a : Byte} (ha : ∀ j ∈ namedReg a, j ∈ N) (s : State) :
    execCall (renameByte p a) (s.mapRegs g) = mapNext g (execCall a s) := by
  rw [execCall, execCall, ← mapRegs_complete, checkReg_bind_mapRegs ha]
  intro j hj
  rw [mapRegs_returnAddress]
  cases s.returnAddress 1 with
  | error c => rfl
  | ok ret =>
    rw [ok_bind, ok_bind, hg.push_mapRegs s (v := fun _ => ret) (fun _ => rfl)]
    cases s.push (fun _ => ret) with
    | error c => rfl
    | ok u => simp [hg.read u j hj, Except.map]

theorem Relabels.execRet_mapRegs (s : State) : execRet (s.mapRegs g) = mapNext g (execRet s) := by
  rw [execRet_ok, execRet_ok, hg.sp_mapRegs, hg.incSp_mapRegs]
  rfl

/-- Every instruction whose registers lie in `N` does the same after the change, with its registers renamed. -/
theorem Relabels.exec_mapRegs {i : Instr} (hi : ∀ b ∈ i.registerOperands, ∀ j ∈ namedReg b, j ∈ N) (s : State) :
    exec (renameInstr p i) (s.mapRegs g) = mapNext g (exec i s) := by
  cases i with
  | hlt => rfl
  | ret => exact hg.execRet_mapRegs s
  | ldi a imm => exact hg.execLdi_mapRegs (hi a (.head _)) imm s
  | prn a | pra a => exact hg.emitReg_mapRegs (hi a (.head _)) _ s
  | push a => exact hg.execPush_mapRegs (hi a (.head _)) s
  | pop a => exact hg.execPop_mapRegs (hi a (.head _)) s
  | call a => exact hg.execCall_mapRegs (hi a (.head _)) s
  | jmp a | jeq a | jne a | jgt a | jlt a | jle a | jge a => exact hg.jumpIf_mapRegs (hi a (.head _)) _ s
  | inc a | dec a | not a => exact hg.aluUnary_mapRegs (hi a (.head _)) _ s
  | cmp a b | add a b | sub a b | mul a b | div a b | mod a b | and a b | or a b | xor a b | shl a b | shr a b =>
    exact hg.aluBinary_mapRegs (hi a (.head _)) (hi b (.tail _ (.head _))) _ s

end

/-! ### Registers written -/

theorem eq_of_readReg_writeReg_ne {s : State} {r j : RegIndex} {v : Int}
    (h : (s.writeReg r v).readReg j ≠ s.readReg j) : j = r :=
  Decidable.byContradiction fun hne => h (readReg_writeReg_ne s v (Ne.symm hne))

/-- A register that an effect changes is in its instruction's row of the table (10_state.md R15). -/
theorem Effect.mem_writtenRegs {i : Instr} {s t : State} (h : Effect i s t) {j : RegIndex}
    (hj : t.readReg j ≠ s.readReg j) : j ∈ writtenRegs i := by
  cases h with
  | raised | halted | printedDec | printedChr | compared | jumped | fellThrough => exact absurd rfl hj
  | wrote _ _ r v _ _ hr => exact eq_of_readReg_writeReg_ne hj ▸ hr
  | pushed | called | returned => exact List.mem_singleton.mpr (eq_of_readReg_writeReg_ne (s := s) hj)
  | popped a _ r v hr =>
    by_cases hu : (s.writeReg r v).readReg j = s.readReg j
    · exact List.mem_append_right _ (List.mem_singleton.mpr (eq_of_readReg_writeReg_ne (s := s.writeReg r v) (hu ▸ hj)))
    · exact eq_of_readReg_writeReg_ne hu ▸ hr

/-! ### The obligation -/

theorem val_eq_toNat_of_mem_namedReg {b : Byte} {j : RegIndex} (h : j ∈ namedReg b) : b.toNat = j.val := by
  unfold namedReg at h
  split at h
  · rw [List.mem_singleton.mp h]
  · cases h

/-- An instruction does not read a register, other than the stack pointer, that it does not name. -/
theorem exec_writeReg_of_not_named {i : Instr} {s t : State} {j : RegIndex} (hj : j ≠ Config.spIndex)
    (hi : ∀ b ∈ i.registerOperands, b.toNat ≠ j.val) (h : exec i s = .next t) (v : Int) :
    exec i (s.writeReg j v) = .next (t.writeReg j v) := by
  have hN : ∀ b ∈ i.registerOperands, ∀ k ∈ namedReg b, k ∈ {k | k ≠ j} :=
    fun b hb k hk e => hi b hb (e ▸ val_eq_toNat_of_mem_namedReg hk)
  rw [writeReg_eq_mapRegs, ← renameInstr_refl i, (relabels_set hj (mask8 v)).exec_mapRegs hN, h]
  rfl

/-- Every instruction does the same with the registers other than the stack pointer renamed, in it and in the state. -/
theorem exec_renameInstr {p : Equiv.Perm (Fin 8)} (hp : p Config.spIndex = Config.spIndex) {i : Instr} {s t : State}
    (h : exec i s = .next t) : exec (renameInstr p i) (s.permuteRegs p) = .next (t.permuteRegs p) := by
  rw [permuteRegs_eq_mapRegs, (relabels_movedRegs hp).exec_mapRegs (fun _ _ _ _ => Set.mem_univ _), h]
  rfl

/-- Settles O49: the writing by the inversion of `exec`, the reading and the renaming as two changes of the register file
that no instruction sees. -/
theorem noRegisterButTheStackPointerIsSpecial : Obligations.NoRegisterButTheStackPointerIsSpecial :=
  ⟨fun _ _ _ _ hj h => ⟨(exec_effect h).mem_writtenRegs, fun _ hi => exec_writeReg_of_not_named hj hi h _⟩,
    fun _ _ _ _ hp h => exec_renameInstr hp h⟩

end Sys2Proof.Machine
end

section
/-! O8 (20_memory.md R31). The two memory primitives against each other: what `MemRead` gives after a `MemWrite`, at the
written address and at every other integer, from the read-after-write laws of memory as data. -/

namespace Sys2Proof.Machine

theorem memRead_write_self {s : State} {a : Nat} (hm : s.mem.wf = true) (ha : a < 256) (v : Byte) :
    ({ s with mem := s.mem.write a v } : State).memRead a = .ok v := by
  rw [memRead_ok _ ha, read_write hm, if_pos rfl]

/-- At every other integer `MemRead` is as before the write: the same byte inside memory, the same Bounds fault outside. -/
theorem memRead_write_ne (s : State) {a : Nat} {b : Int} (hba : b ≠ a) (v : Byte) :
    ({ s with mem := s.mem.write a v } : State).memRead b = s.memRead b := by
  by_cases hb : 0 ≤ b ∧ b < 256
  · lift b to Nat using hb.1
    have hlt : b < 256 := by omega
    have hab : a ≠ b := by omega
    rw [memRead_ok _ hlt, memRead_ok _ hlt, read_write_ne s.mem hab]
  · rw [memRead_error _ hb, memRead_error _ hb]

/-- Settles O8: inside memory the write is `Memory.write`, read back by the two laws above; outside both primitives raise. -/
theorem memoryWriteSetsOneCell : Obligations.MemoryWriteSetsOneCell := by
  intro s a v hm
  constructor
  · rintro ⟨h0, h255⟩
    lift a to Nat using h0
    have ha : a < 256 := by omega
    exact ⟨_, memWrite_ok s v ha, memRead_write_self hm ha v, fun _ hba => memRead_write_ne s hba v, rfl⟩
  · intro hout
    have ha : ¬ (0 ≤ a ∧ a < 256) := by omega
    exact ⟨memWrite_error s v ha, memRead_error s ha⟩

end Sys2Proof.Machine
end

section
/-! O6 (30_encoding.md R47). A byte sequence that decodes has lost its opcode byte and as many bytes as the dispatcher's
entry counts; for this hardware's map that count is bits 7:6 of the opcode byte. -/

namespace Sys2Proof

/-! ### The operand count -/

theorem Format.operandCount_le_two (f : Format) : f.operandCount ≤ 2 := by
  cases f <;> decide

/-- Constraint (a) of R53 for this hardware's map. -/
theorem countField_opcodeMap (k : Mnemonic) : (Config.opcodeMap k).countField.toNat = k.format.operandCount := by
  cases k <;> rfl

/-- A lookup that answers gives the entry of a mnemonic whose opcode byte is the key. -/
theorem OpcodeMap.lookup_some {m : OpcodeMap} {ir : Byte} {e : DispatchEntry} (h : m.lookup ir = some e) :
    ∃ k, m k = ir ∧ e = m.entry k := by
  obtain ⟨k, hk, he⟩ := Option.map_eq_some_iff.mp h
  exact ⟨k, mnemonicOf_some hk, he.symm⟩

theorem OpcodeMap.operandCount_le_two_of_lookup {m : OpcodeMap} {ir : Byte} {e : DispatchEntry}
    (h : m.lookup ir = some e) : e.operandCount ≤ 2 := by
  obtain ⟨k, -, rfl⟩ := lookup_some h
  exact k.format.operandCount_le_two

theorem operandCount_of_lookup {ir : Byte} {e : DispatchEntry} (h : lookup ir = some e) :
    e.operandCount = ir.countField.toNat := by
  obtain ⟨k, rfl, rfl⟩ := OpcodeMap.lookup_some h
  exact (countField_opcodeMap k).symm

/-! ### The bytes a decoded instruction takes -/

theorem length_of_takeOperands {ir : Byte} {n : Nat} {rest rest' : List Byte} {opa opb : Byte} (hn : n ≤ 2)
    (h : takeOperands ir n rest = .ok (opa, opb, rest')) : rest.length = rest'.length + n := by
  match n, rest, h with
  | 0, _, h | 1, _ :: _, h | 2, _ :: _ :: _, h =>
    cases h
    rfl

/-- Bytes that decode have an entry, and its operands were there. -/
theorem OpcodeMap.decode_cons_ok {m : OpcodeMap} {ir : Byte} {rest rest' : List Byte} {i : Instr}
    (h : m.decode (ir :: rest) = .ok (i, rest')) :
    ∃ e opa opb, m.lookup ir = some e ∧ takeOperands ir e.operandCount rest = .ok (opa, opb, rest') ∧
      i = Instr.build e.handler opa opb := by
  rw [OpcodeMap.decode] at h
  split at h
  · cases h
  next e he =>
    split at h
    · cases h
    next opa opb _ ht =>
      cases h
      exact ⟨e, opa, opb, he, ht, rfl⟩

/-- Settles O6: the operands taken are those the entry counts, and the entry's count is the count field. -/
theorem lengthIsToldByTheOpcodeByte : Obligations.LengthIsToldByTheOpcodeByte := by
  refine ⟨fun ir rest rest' i h => ?_, fun _ _ => operandCount_of_lookup⟩
  obtain ⟨e, _, _, he, ht, -⟩ := OpcodeMap.decode_cons_ok h
  have hlen := length_of_takeOperands (OpcodeMap.operandCount_le_two_of_lookup he) ht
  rw [← operandCount_of_lookup he, List.length_cons, hlen]
  omega

end Sys2Proof
end

section
/-! O12 (30_encoding.md R50). LDI with an index in range is one register write and the default advance; the write port's
mask leaves a byte as it is. -/

namespace Sys2Proof.Machine

/-- LDI whose first operand names a register. -/
theorem exec_ldi_ok {a : Byte} (imm : Byte) (s : State) (ha : a.toNat < 8) :
    exec (.ldi a imm) s = .next ((s.writeReg ⟨a.toNat, ha⟩ imm.toNat).advance 2) := by
  rw [exec, execLdi, checkReg_ok ha, ok_bind, complete_ok]

/-- A register write and the default advance change that register and PC only. -/
theorem frame_writeReg_advance (s : State) (r : RegIndex) (v : Int) (n : Nat) :
    Frame { regs := [r] } s ((s.writeReg r v).advance n) := by
  refine ⟨fun j hj => ?_, fun _ _ => rfl, rfl, fun _ => rfl, fun _ => rfl, fun _ => rfl⟩
  rw [advance_readReg, readReg_writeReg_ne s v (Ne.symm (List.ne_of_not_mem_cons hj))]

/-- Only LDI has an operand that is not a register operand. -/
theorem registerOperands_eq_operands {i : Instr} (h : i.mnemonic ≠ .ldi) : i.registerOperands = i.operands := by
  cases i with
  | ldi a imm => exact absurd rfl h
  | _ => rfl

/-- Settles O12: the effect and frame by the two lemmas above, the operand forms by the instruction's constructor. -/
theorem ldiLoadsItsImmediate : Obligations.LdiLoadsItsImmediate := by
  refine ⟨fun s a imm ha => ⟨_, exec_ldi_ok imm s ha, ?_, rfl, frame_writeReg_advance s _ _ 2⟩,
    fun _ _ => ⟨rfl, rfl⟩, fun _ => registerOperands_eq_operands⟩
  rw [advance_readReg, readReg_writeReg_same, mask8_natCast_byte]

end Sys2Proof.Machine
end

section
/-! O58 (40_instruction_cycle.md R60, R70). Turns of `run`'s loop add up, and a stopped machine stays as it is, so any two
turn counts that both stop the machine reach the same state. -/

namespace Sys2Proof.Machine

/-- A turn of the loop leaves a stopped machine as it is (D24). -/
theorem runOnce_of_not_running {s : State} (h : s.run ≠ .running) : s.runOnce = s := by
  cases hr : s.run with
  | running => exact absurd hr h
  | halted => rw [State.runOnce, step_halted hr]
  | faulted r => rw [State.runOnce, step_faulted hr]

@[simp] theorem runFor_zero (s : State) : s.runFor 0 = s := rfl

theorem runFor_succ (s : State) (n : Nat) : s.runFor (n + 1) = s.runOnce.runFor n := rfl

/-- Any number of turns leaves a stopped machine as it is (D24). -/
theorem runFor_of_not_running {s : State} (h : s.run ≠ .running) (n : Nat) : s.runFor n = s := by
  induction n with
  | zero => rfl
  | succ n ih => rw [runFor_succ, runOnce_of_not_running h, ih]

theorem runFor_add (s : State) (m n : Nat) : s.runFor (m + n) = (s.runFor m).runFor n := by
  induction m generalizing s with
  | zero => rw [Nat.zero_add, runFor_zero]
  | succ m ih => rw [Nat.succ_add, runFor_succ, runFor_succ, ih]

/-- Once a run has stopped, further turns change nothing. -/
theorem runFor_eq_of_le {s : State} {m n : Nat} (hm : (s.runFor m).run ≠ .running) (h : m ≤ n) :
    s.runFor n = s.runFor m := by
  obtain ⟨k, rfl⟩ := Nat.exists_eq_add_of_le h
  rw [runFor_add, runFor_of_not_running hm]

/-- A run that ends in `t` is in `t` after every number of turns that stops it. -/
theorem RunsTo.runFor_eq {s t : State} (ht : RunsTo s t) {n : Nat} (hn : (s.runFor n).run ≠ .running) :
    s.runFor n = t := by
  obtain ⟨m, rfl, hm⟩ := ht
  rcases Nat.le_total m n with h | h
  · exact runFor_eq_of_le hm h
  · exact (runFor_eq_of_le hn h).symm

/-- A run ends in one state only. -/
theorem RunsTo.unique {s t u : State} (ht : RunsTo s t) (hu : RunsTo s u) : t = u := by
  obtain ⟨n, rfl, hn⟩ := hu
  exact (ht.runFor_eq hn).symm

/-- Settles O58, from the three lemmas above: one end, the same end at every stopping turn, and turns that add up. -/
theorem theWholeRunIsFixed : Obligations.TheWholeRunIsFixed :=
  ⟨fun _ _ _ ht hu => ht.unique hu, fun _ _ _ ht hn => ht.runFor_eq hn, runFor_add⟩

end Sys2Proof.Machine
end

section
/-! O50 (41_system_load_output.md R79). A step faults before it executes, or it executes the instruction that its bytes
decode to; of the instructions only PRN and PRA touch the output trace, and they append to it exactly when they do not
fault. -/

namespace Sys2Proof.Machine

/-! ### The two ways a step can go -/

theorem run_of_step_next {s t : State} (h : step s = .next t) : s.run = .running := by
  cases hr : s.run with
  | running => rfl
  | halted =>
    rw [step_halted hr] at h
    cases h
  | faulted r =>
    rw [step_faulted hr] at h
    cases h

theorem decodeFault_eq_ok_iff {s : State} {d : Except DecodeError (Instr × List Byte)} {i : Instr} :
    decodeFault s d = .ok i ↔ ∃ rest, d = .ok (i, rest) := by
  rcases d with (_ | _ | _) | ⟨j, rest⟩ <;> simp [decodeFault]

/-- `fetchInstr_eq_decode` at the state of a step whose opcode byte is in IR. -/
theorem fetchInstr_with_ir {s : State} (hp : s.pc.toNat ≤ 255) (ir : Byte) :
    ({ s with ir := ir } : State).fetchInstr (s.mem.read s.pc.toNat) =
      decodeFault s (decode (s.bytesFrom s.pc.toNat 3)) :=
  fetchInstr_eq_decode s { s with ir := ir } rfl rfl hp

/-- The inversion of a step: bytes that do not decode are a fault that changes at most IR and the run state; otherwise
the decoded instruction is executed with its opcode byte in IR. -/
theorem step_next_cases {s t : State} (h : step s = .next t) :
    ((∀ i rest, decode (s.bytesFrom s.pc.toNat 3) ≠ .ok (i, rest)) ∧
      ∃ ir c, t = ({ s with ir := ir } : State).raise c) ∨
    ∃ i rest, decode (s.bytesFrom s.pc.toNat 3) = .ok (i, rest) ∧
      exec i { s with ir := s.mem.read s.pc.toNat } = .next t := by
  rw [step_running (run_of_step_next h)] at h
  rcases cycle_cases s with ⟨hp, hc⟩ | ⟨hp, c, hf, hc⟩ | ⟨hp, i, hf, hc⟩
  · refine .inl ⟨fun i rest hd => ?_, s.ir, _, next_inj (hc ▸ h)⟩
    rw [bytesFrom_nil hp] at hd
    cases hd
  · rw [fetchInstr_with_ir hp] at hf
    refine .inl ⟨fun i rest hd => ?_, _, c, next_inj (hc ▸ h)⟩
    rw [decodeFault_eq_ok_iff.mpr ⟨rest, hd⟩] at hf
    cases hf
  · rw [fetchInstr_with_ir hp] at hf
    obtain ⟨rest, hd⟩ := decodeFault_eq_ok_iff.mp hf
    exact .inr ⟨i, rest, hd, hc ▸ h⟩

/-! ### The output of an instruction -/

/-- PRN and PRA, the two instructions that print (R77, R78). -/
def Prints (i : Instr) : Prop := ∃ a, i = .prn a ∨ i = .pra a

/-- An instruction that does not print leaves the trace as it is, whatever else it does. -/
theorem Effect.out_eq {i : Instr} {s t : State} (h : Effect i s t) (hi : ¬ Prints i) : t.out = s.out := by
  cases h with
  | printedDec a => exact absurd ⟨a, .inl rfl⟩ hi
  | printedChr a => exact absurd ⟨a, .inr rfl⟩ hi
  | _ => rfl

/-- The shape of PRN and PRA faults with the trace as it was, or goes on with one event more. -/
theorem emitReg_out {event : Byte → OutEvent} {a : Byte} {s t : State} (h : emitReg event a s = .next t) :
    (t.out = s.out ∧ t.run ≠ .running) ∨ ((∃ e, t.out = s.out ++ [e]) ∧ t.run = s.run) := by
  rcases emitReg_cases h with ⟨_, rfl⟩ | ⟨_, rfl⟩
  · exact .inr ⟨⟨_, rfl⟩, rfl⟩
  · exact .inl ⟨rfl, RunState.noConfusion⟩

/-- From a running state an instruction appends one event if it prints and the machine still runs after it, and leaves
the trace as it is if not. -/
theorem exec_out {i : Instr} {s t : State} (hs : s.run = .running) (h : exec i s = .next t) :
    (t.out = s.out ∧ ¬ (t.run = .running ∧ Prints i)) ∨
    ((∃ e, t.out = s.out ++ [e]) ∧ t.run = .running ∧ Prints i) := by
  by_cases hi : Prints i
  · have ho : (t.out = s.out ∧ t.run ≠ .running) ∨ ((∃ e, t.out = s.out ++ [e]) ∧ t.run = s.run) := by
      obtain ⟨a, rfl | rfl⟩ := hi
      · exact emitReg_out h
      · exact emitReg_out h
    rcases ho with ⟨ho, hr⟩ | ⟨ho, hr⟩
    · exact .inl ⟨ho, fun hp => hr hp.1⟩
    · exact .inr ⟨ho, hr.trans hs, hi⟩
  · exact .inl ⟨(exec_effect h).out_eq hi, fun hp => hi hp.2⟩

/-! ### The obligation -/

/-- Bytes that decode to `i` decode to a PRN or a PRA exactly if `i` prints. -/
theorem decodes_to_print_iff {d : Except DecodeError (Instr × List Byte)} {i : Instr} {rest : List Byte}
    (h : d = .ok (i, rest)) :
    (∃ a rest', d = .ok (.prn a, rest') ∨ d = .ok (.pra a, rest')) ↔ Prints i := by
  subst h
  simp [Prints, ← or_and_right]

/-- A trace that is kept where `p` fails and gets one event more where `p` holds differs exactly where `p` holds. -/
theorem appends_at_most_one {o o' : List OutEvent} {p : Prop}
    (h : (o' = o ∧ ¬ p) ∨ ((∃ e, o' = o ++ [e]) ∧ p)) :
    (o' = o ∨ ∃ e, o' = o ++ [e]) ∧ (o' ≠ o ↔ p) := by
  rcases h with ⟨rfl, hp⟩ | ⟨⟨e, rfl⟩, hp⟩
  · exact ⟨.inl rfl, fun hne => absurd rfl hne, fun h => absurd h hp⟩
  · exact ⟨.inr ⟨e, rfl⟩, fun _ => hp, fun _ => by simp⟩

/-- Settles O50, by the inversion of the step: a fault of the fetch keeps the trace, and an instruction that is executed
does with it what `exec_out` says. -/
theorem outputGrowsOnlyByPrints : Obligations.OutputGrowsOnlyByPrints := by
  intro s t h
  have hs : s.run = .running := run_of_step_next h
  refine appends_at_most_one ?_
  rcases step_next_cases h with ⟨hd, ir, c, rfl⟩ | ⟨i, rest, hd, he⟩
  · exact .inl ⟨rfl, fun hp => RunState.noConfusion hp.1⟩
  · rw [decodes_to_print_iff hd]
    exact exec_out (s := { s with ir := s.mem.read s.pc.toNat }) hs he

end Sys2Proof.Machine
end

section
/-! O1 to O5 (30_encoding.md R45 to R54). The two directions of the encoding over any opcode map: the operands that a
format takes are those its instructions list, and a map without two equal bytes finds its mnemonics again. -/

namespace Sys2Proof

/-! ### Operand bytes and the operands of an instruction -/

/-- The operands of an instruction, in front of any bytes, are what its format takes, and they rebuild it. -/
theorem takeOperands_operands (i : Instr) (ir : Byte) (rest : List Byte) :
    ∃ opa opb, takeOperands ir i.mnemonic.format.operandCount (i.operands ++ rest) = .ok (opa, opb, rest) ∧
      Instr.build i.mnemonic opa opb = i := by
  cases i with
  | hlt | ret => exact ⟨0, 0, rfl, rfl⟩
  | prn a | pra a | push a | pop a | call a | inc a | dec a | not a => exact ⟨a, 0, rfl, rfl⟩
  | jmp a | jeq a | jne a | jgt a | jlt a | jle a | jge a => exact ⟨a, 0, rfl, rfl⟩
  | ldi a b | cmp a b | add a b | sub a b | mul a b | div a b | mod a b => exact ⟨a, b, rfl, rfl⟩
  | and a b | or a b | xor a b | shl a b | shr a b => exact ⟨a, b, rfl, rfl⟩

@[simp] theorem build_mnemonic (k : Mnemonic) (opa opb : Byte) : (Instr.build k opa opb).mnemonic = k := by
  cases k <;> rfl

/-- An instruction has the first operand bytes that it is built from, as many as its format counts. -/
theorem build_operands (k : Mnemonic) (opa opb : Byte) :
    (Instr.build k opa opb).operands = [opa, opb].take k.format.operandCount := by
  cases k <;> rfl

/-- What is taken, up to the count, and what is left make up the bytes there were. -/
theorem eq_of_takeOperands_ok {ir : Byte} {n : Nat} {rest rest' : List Byte} {opa opb : Byte} (hn : n ≤ 2)
    (h : takeOperands ir n rest = .ok (opa, opb, rest')) : [opa, opb].take n ++ rest' = rest := by
  match n, rest, h with
  | 0, _, h | 1, _ :: _, h | 2, _ :: _ :: _, h =>
    cases h
    rfl

/-! ### Decode of encode -/

/-- A map that gives no two mnemonics one byte finds each mnemonic by its byte. -/
theorem lookup_opcode {m : OpcodeMap} (hinj : ∀ k k', m k = m k' → k = k') (k : Mnemonic) :
    m.lookup (m k) = some (m.entry k) := by
  cases hk : m.mnemonicOf (m k) with
  | none => exact absurd rfl (mnemonicOf_none.mp hk k)
  | some k' =>
    rw [OpcodeMap.lookup, hk, hinj k' k (mnemonicOf_some hk)]
    rfl

/-- Settles O2: the lookup finds the mnemonic, and the operands taken are the instruction's own. -/
theorem decodeUndoesEncodeForEveryValidMap : Obligations.DecodeUndoesEncodeForEveryValidMap := by
  rintro m ⟨-, -, -, hinj, -⟩ i rest
  obtain ⟨opa, opb, htake, hbuild⟩ := takeOperands_operands i (m i.mnemonic) rest
  have hentry : m.lookup (m i.mnemonic) = some (m.entry i.mnemonic) := lookup_opcode hinj _
  have hcount : (m.entry i.mnemonic).operandCount = i.mnemonic.format.operandCount := rfl
  have hhandler : (m.entry i.mnemonic).handler = i.mnemonic := rfl
  simp only [OpcodeMap.encode, List.cons_append, OpcodeMap.decode, hentry, hcount, htake, hhandler, hbuild]

/-! ### Encode of decode -/

/-- Settles O3: the entry found has the first byte as its opcode, and the operands taken are the instruction's. -/
theorem decodedBytesAreTheEncoding : Obligations.DecodedBytesAreTheEncoding := by
  intro m bytes rest i h
  cases bytes with
  | nil => cases h
  | cons ir bytes =>
    obtain ⟨e, opa, opb, he, htake, rfl⟩ := OpcodeMap.decode_cons_ok h
    have hle : e.operandCount ≤ 2 := OpcodeMap.operandCount_le_two_of_lookup he
    obtain ⟨k, rfl, rfl⟩ := OpcodeMap.lookup_some he
    have htaken := eq_of_takeOperands_ok hle htake
    change [opa, opb].take k.format.operandCount ++ rest = bytes at htaken
    change m (Instr.build k opa opb).mnemonic :: ((Instr.build k opa opb).operands ++ rest) = m k :: bytes
    rw [build_mnemonic, build_operands, htaken]

/-! ### This hardware's map -/

/-- Constraint (b) of R53 for this hardware's map. -/
theorem setsPcField_opcodeMap (k : Mnemonic) : (Config.opcodeMap k).setsPcField = k.controlsPc := by
  cases k <;> rfl

/-- Constraint (c) of R53 for this hardware's map. -/
theorem aluField_opcodeMap (k : Mnemonic) : (Config.opcodeMap k).aluField = k.isAlu := by
  cases k <;> rfl

/-- The opcode bytes of R52 in its order. -/
theorem map_opcodeMap_all : Mnemonic.all.map (fun k => (Config.opcodeMap k).toNat) =
    [0x01, 0x82, 0x47, 0x48, 0x45, 0x46, 0x50, 0x11, 0x54, 0x55, 0x56, 0x57, 0x58, 0x59, 0x5A] ++
      [0xA7, 0xA0, 0xA1, 0xA2, 0xA3, 0xA4, 0x65, 0x66, 0xA8, 0x69, 0xAA, 0xAB, 0xAC, 0xAD] := rfl

/-- The key of constraint (e) of R53: the category bits of an opcode byte with its id. -/
def categoryAndId (ir : Byte) : Bool × Bool × BitVec 4 := (ir.aluField, ir.setsPcField, ir.idField)

/-- Constraint (e) of R53 for this hardware's map: category and id tell the 29 bytes apart. -/
theorem categoryAndId_injective {k k' : Mnemonic}
    (h : categoryAndId (Config.opcodeMap k) = categoryAndId (Config.opcodeMap k')) : k = k' := by
  have hnodup : (Mnemonic.all.map fun k => categoryAndId (Config.opcodeMap k)).Nodup := by decide
  exact List.inj_on_of_nodup_map hnodup k.mem_all k'.mem_all h

/-- Settles O1: (a) to (c) by the mnemonic, (d) and (e) because category and id tell the bytes apart. -/
theorem opcodeMapMeetsItsConstraints : Obligations.OpcodeMapMeetsItsConstraints := by
  refine ⟨countField_opcodeMap, setsPcField_opcodeMap, aluField_opcodeMap,
    fun _ _ h => categoryAndId_injective (congrArg categoryAndId h), fun _ _ hne halu hpc hid => hne ?_⟩
  exact categoryAndId_injective (Prod.ext halu (Prod.ext hpc hid))

/-- Settles O4: the decoder run on each word. -/
theorem wordsOfTheSpecDecode : Obligations.WordsOfTheSpecDecode :=
  ⟨rfl, rfl, rfl, rfl, rfl, rfl, rfl, rfl, rfl⟩

theorem lookup_ne_none_iff (ir : Byte) : lookup ir ≠ none ↔ ∃ k, Config.opcodeMap k = ir := by
  simp [lookup, OpcodeMap.lookup, mnemonicOf_none]

/-- Settles O5: a byte has an entry exactly if a mnemonic has it, and those bytes are the list. -/
theorem onlyThe29BytesHaveAnEntry : Obligations.OnlyThe29BytesHaveAnEntry := by
  intro ir
  rw [lookup_ne_none_iff, ← map_opcodeMap_all, List.mem_map]
  constructor
  · rintro ⟨k, rfl⟩
    exact ⟨k, k.mem_all, rfl⟩
  · rintro ⟨k, -, hk⟩
    exact ⟨k, BitVec.eq_of_toNat_eq hk⟩

end Sys2Proof
end

section
/-! O21, O34, O35 (60_exceptions.md R121, items 4 and 5). Every instruction takes the first fault of its list, or
completes; what the other statements say of single faults is read off that list. -/

namespace Sys2Proof.Machine

/-! ### The register file's ports -/

theorem regWrite_ok (s : State) {index : Byte} (value : Int) (h : index.toNat < 8) :
    s.regWrite index value = .ok (s.writeReg ⟨index.toNat, h⟩ value) := by
  rw [State.regWrite, checkReg_ok h, ok_bind]

theorem regRead_ok (s : State) {index : Byte} (h : index.toNat < 8) :
    s.regRead index = .ok (s.readReg ⟨index.toNat, h⟩) := by
  rw [State.regRead, checkReg_ok h, ok_bind]

theorem regWrite_error (s : State) {index : Byte} (value : Int) (h : ¬ index.toNat < 8) :
    s.regWrite index value = .error (.boundsRegister index) := by
  rw [State.regWrite, checkReg_error h, error_bind]

theorem regRead_error (s : State) {index : Byte} (h : ¬ index.toNat < 8) :
    s.regRead index = .error (.boundsRegister index) := by
  rw [State.regRead, checkReg_error h, error_bind]

/-! ### The list, by the register operands of an instruction -/

theorem execFault_one {i : Instr} (s : State) {a : Byte} (h : i.registerOperands = [a]) :
    s.execFault i = if a.toNat < 8 then s.ownFault i else some (.boundsRegister a) := by
  rw [State.execFault, badRegister, h, find_badIndex_one]
  by_cases ha : a.toNat < 8 <;> simp only [ha, if_true, if_false]

theorem execFault_two {i : Instr} (s : State) {a b : Byte} (h : i.registerOperands = [a, b]) :
    s.execFault i = if a.toNat < 8 then (if b.toNat < 8 then s.ownFault i else some (.boundsRegister b))
      else some (.boundsRegister a) := by
  rw [State.execFault, badRegister, h, find_badIndex_two]
  by_cases ha : a.toNat < 8
  · by_cases hb : b.toNat < 8 <;> simp only [ha, hb, if_true, if_false]
  · simp only [ha, if_false]

/-- The first register operand above 7 is the fault, whatever the instruction would have done. -/
theorem execFault_of_badRegister {i : Instr} (s : State) {before after : List Byte} {b : Byte}
    (h : i.registerOperands = before ++ b :: after) (hbefore : ∀ x ∈ before, x.toNat < 8) (hb : ¬ b.toNat < 8) :
    s.execFault i = some (.boundsRegister b) := by
  have hfind : badRegister i = some b := by
    rw [badRegister, List.find?_eq_some_iff_append]
    exact ⟨by simp [Byte.isRegIndex, hb], before, after, h, fun x hx => by simp [Byte.isRegIndex, hbefore x hx]⟩
  rw [State.execFault, hfind]

theorem pushFault_of_sp_zero {s : State} (h : s.sp.toNat = 0) : s.pushFault = some (.boundsMemory (-1)) :=
  if_pos (BitVec.eq_of_toNat_eq h)

theorem pushFault_of_sp_ne_zero {s : State} (h : s.sp.toNat ≠ 0) : s.pushFault = none :=
  if_neg fun e => h (congrArg BitVec.toNat e)

/-- The own fault of an ALU instruction: the zero divisor of DIV and MOD (R117). -/
def aluFault (op : AluOp) (b : Byte) (s : State) : Option FaultCause :=
  if (op = .div ∨ op = .mod) ∧ s.operandValue b = 0 then some (.arithmetic (Config.opcodeMap op.mnemonic)) else none

/-! ### The two ways an instruction can go -/

/-- The run state after an instruction that completes. -/
def runAfter (i : Instr) (s : State) : RunState := if i = .hlt then .halted else s.run

/-- From `s` to `t` the instruction took the first fault of its list, or it has none there and completed. -/
def FaultsOrCompletes (i : Instr) (s t : State) : Prop :=
  (∃ c, s.execFault i = some c ∧ t = s.raise c) ∨ (s.execFault i = none ∧ t.run = runAfter i s)

section
variable {i : Instr} {s t : State} {a b : Byte} (hi : i ≠ .hlt)
include hi

theorem runAfter_of_ne_hlt (s : State) : runAfter i s = s.run := if_neg hi

/-- One register operand and no fault of its own: LDI, the prints, POP, the jumps and the one-operand ALU form. -/
theorem faultsOrCompletes_one (ha : i.registerOperands = [a]) (hown : s.ownFault i = none)
    (h : (a.toNat < 8 ∧ t.run = s.run) ∨ (¬ a.toNat < 8 ∧ t = s.raise (.boundsRegister a))) :
    FaultsOrCompletes i s t := by
  rw [FaultsOrCompletes, execFault_one s ha, runAfter_of_ne_hlt hi]
  rcases h with ⟨h8, hr⟩ | ⟨h8, rfl⟩
  · exact .inr ⟨by rw [if_pos h8, hown], hr⟩
  · exact .inl ⟨_, if_neg h8, rfl⟩

theorem jumpIf_faultsOrCompletes {taken : Bool} (ha : i.registerOperands = [a]) (hown : s.ownFault i = none)
    (h : jumpIf taken a s = .next t) : FaultsOrCompletes i s t := by
  refine faultsOrCompletes_one hi ha hown ?_
  rcases jumpIf_cases h with ⟨h8, rfl⟩ | hbad
  · exact .inl ⟨h8, by cases taken <;> rfl⟩
  · exact .inr hbad

theorem emitReg_faultsOrCompletes {event : Byte → OutEvent} (ha : i.registerOperands = [a]) (hown : s.ownFault i = none)
    (h : emitReg event a s = .next t) : FaultsOrCompletes i s t := by
  refine faultsOrCompletes_one hi ha hown ?_
  rcases emitReg_cases h with ⟨h8, rfl⟩ | hbad
  · exact .inl ⟨h8, rfl⟩
  · exact .inr hbad

theorem aluUnary_faultsOrCompletes {op : AluOp} (ho : op ≠ .div ∧ op ≠ .mod) (ha : i.registerOperands = [a])
    (hown : s.ownFault i = none) (h : aluUnary op a s = .next t) : FaultsOrCompletes i s t := by
  refine faultsOrCompletes_one hi ha hown ?_
  rcases aluUnary_cases ho h with ⟨h8, r, -, rfl⟩ | hbad
  · exact .inl ⟨h8, by cases r <;> rfl⟩
  · exact .inr hbad

theorem aluBinary_faultsOrCompletes {op : AluOp} (hab : i.registerOperands = [a, b])
    (hown : s.ownFault i = aluFault op b s) (h : aluBinary op a b s = .next t) : FaultsOrCompletes i s t := by
  rw [FaultsOrCompletes, execFault_two s hab, runAfter_of_ne_hlt hi, hown]
  rcases aluBinary_cases h with ⟨ha, hb, r, hr, rfl⟩ | ⟨ha, hb, ho, hz, rfl⟩ | ⟨x, ⟨ha, rfl⟩ | ⟨ha, hb, rfl⟩, rfl⟩
  · have hnone : aluFault op b s = none := by
      refine if_neg fun ⟨ho, hz⟩ => ?_
      rw [operandValue_reg hb] at hz
      rw [hz] at hr
      rcases ho with rfl | rfl <;> cases hr
    exact .inr ⟨by rw [if_pos ha, if_pos hb, hnone], by cases r <;> rfl⟩
  · have hsome : aluFault op b s = some (.arithmetic (Config.opcodeMap op.mnemonic)) :=
      if_pos ⟨ho, operandValue_reg hb ▸ hz⟩
    exact .inl ⟨_, by rw [if_pos ha, if_pos hb, hsome], rfl⟩
  · exact .inl ⟨_, if_neg ha, rfl⟩
  · exact .inl ⟨_, by rw [if_pos ha, if_neg hb], rfl⟩

end

theorem execPush_faultsOrCompletes {a : Byte} {s t : State} (h : execPush a s = .next t) :
    FaultsOrCompletes (.push a) s t := by
  rw [FaultsOrCompletes, execFault_one s (a := a) rfl, State.ownFault]
  rcases execPush_cases h with ⟨ha, hs, rfl⟩ | ⟨ha, hs, rfl⟩ | ⟨ha, rfl⟩
  · exact .inr ⟨by rw [if_pos ha, pushFault_of_sp_ne_zero hs], rfl⟩
  · exact .inl ⟨_, by rw [if_pos ha, pushFault_of_sp_zero hs], rfl⟩
  · exact .inl ⟨_, if_neg ha, rfl⟩

theorem execCall_faultsOrCompletes {a : Byte} {s t : State} (h : execCall a s = .next t) :
    FaultsOrCompletes (.call a) s t := by
  rw [FaultsOrCompletes, execFault_one s (a := a) rfl, State.ownFault]
  rcases execCall_cases h with ⟨ha, hp, hs, rfl⟩ | ⟨ha, hp, rfl⟩ | ⟨ha, hp, hs, rfl⟩ | ⟨ha, rfl⟩
  · exact .inr ⟨by rw [if_pos ha, if_neg (by omega), pushFault_of_sp_ne_zero hs], rfl⟩
  · exact .inl ⟨_, by rw [if_pos ha, if_pos hp]; rfl, rfl⟩
  · exact .inl ⟨_, by rw [if_pos ha, if_neg (by omega), pushFault_of_sp_zero hs], rfl⟩
  · exact .inl ⟨_, if_neg ha, rfl⟩

/-- Every instruction takes the first fault of its list, or has none and completes. -/
theorem exec_faultsOrCompletes {i : Instr} {s t : State} (h : exec i s = .next t) : FaultsOrCompletes i s t := by
  cases i with
  | hlt => exact .inr ⟨rfl, congrArg State.run (next_inj h)⟩
  | ret =>
    rw [exec, execRet_ok] at h
    rw [next_inj h]
    exact .inr ⟨rfl, rfl⟩
  | ldi a imm =>
    refine faultsOrCompletes_one Instr.noConfusion rfl rfl ?_
    rcases execLdi_cases h with ⟨ha, rfl⟩ | hbad
    · exact .inl ⟨ha, rfl⟩
    · exact .inr hbad
  | pop a =>
    refine faultsOrCompletes_one Instr.noConfusion rfl rfl ?_
    rcases execPop_cases h with ⟨ha, rfl⟩ | hbad
    · exact .inl ⟨ha, rfl⟩
    · exact .inr hbad
  | prn a | pra a => exact emitReg_faultsOrCompletes Instr.noConfusion rfl rfl h
  | push a => exact execPush_faultsOrCompletes h
  | call a => exact execCall_faultsOrCompletes h
  | jmp a | jeq a | jne a | jgt a | jlt a | jle a | jge a => exact jumpIf_faultsOrCompletes Instr.noConfusion rfl rfl h
  | inc a | dec a | not a => exact aluUnary_faultsOrCompletes Instr.noConfusion (by decide) rfl rfl h
  | div a b | mod a b =>
    exact aluBinary_faultsOrCompletes Instr.noConfusion rfl (by simp [aluFault, State.ownFault, AluOp.mnemonic]) h
  | cmp a b | add a b | sub a b | mul a b | and a b | or a b | xor a b | shl a b | shr a b =>
    exact aluBinary_faultsOrCompletes Instr.noConfusion rfl (by simp [aluFault, State.ownFault]) h

/-- An instruction with a fault on its list takes it. -/
theorem exec_of_execFault {i : Instr} {s : State} {c : FaultCause} (hc : s.execFault i = some c) :
    exec i s = .next (s.raise c) := by
  obtain ⟨t, ht⟩ := exec_next i s
  rcases exec_faultsOrCompletes ht with ⟨c', hc', rfl⟩ | ⟨hnone, -⟩
  · rw [hc] at hc'
    cases hc'
    exact ht
  · rw [hc] at hnone
    cases hnone

/-- Settles O35: the fault by the list, or completion with the run state of the instruction. -/
theorem instructionsFaultExactlyByPriority : Obligations.InstructionsFaultExactlyByPriority := by
  refine fun i s => ⟨fun c => exec_of_execFault, fun hnone => ?_⟩
  obtain ⟨t, ht⟩ := exec_next i s
  rcases exec_faultsOrCompletes ht with ⟨c, hc, -⟩ | ⟨-, hr⟩
  · rw [hc] at hnone
    cases hnone
  · exact ⟨t, ht, hr⟩

/-! ### Single faults -/

/-- Settles O34: the read port by the check of its index, the instructions by the head of the fault list. -/
theorem registerOperandAbove7Faults : Obligations.RegisterOperandAbove7Faults := by
  refine ⟨fun s b => ⟨fun h => ?_, fun h => ?_⟩, fun i s before after b hi hbefore hb => ?_⟩
  · exact regRead_ok s h
  · exact regRead_error s (by omega)
  · refine exec_of_execFault (execFault_of_badRegister s hi (fun x hx => ?_) (by omega))
    have := hbefore x hx
    omega

/-- Settles O21: each fault is the first of its instruction's list. -/
theorem stackBoundsFaults : Obligations.StackBoundsFaults := by
  intro s a ha
  refine ⟨fun hs => exec_of_execFault ?_, fun hs hp => exec_of_execFault ?_, fun hp => exec_of_execFault ?_⟩
  · rw [execFault_one s (a := a) rfl, if_pos ha, State.ownFault, pushFault_of_sp_zero (congrArg BitVec.toNat hs)]
  · rw [execFault_one s (a := a) rfl, if_pos ha, State.ownFault, if_neg (by omega),
      pushFault_of_sp_zero (congrArg BitVec.toNat hs)]
  · rw [execFault_one s (a := a) rfl, if_pos ha, State.ownFault, if_pos hp]

end Sys2Proof.Machine
end

section
/-! O7, O36, O37, O40, O41, O44 (60_exceptions.md R121, R122, 40_instruction_cycle.md R61 to R63). A whole step by its
fault list: it takes the first fault of the list after its fetch, or executes the instruction at PC to its end. -/

namespace Sys2Proof.Machine

/-! ### A step against its fault list -/

/-- The state of a step after its opcode fetch: IR holds the byte at PC if there is one (R62). -/
def State.fetched (s : State) : State :=
  { s with ir := if s.pc.toNat ≤ 255 then s.mem.read s.pc.toNat else s.ir }

theorem fetched_of_pc_le {s : State} (hp : s.pc.toNat ≤ 255) : s.fetched = { s with ir := s.mem.read s.pc.toNat } := by
  rw [State.fetched, if_pos hp]

theorem fetched_of_pc_gt {s : State} (hp : 255 < s.pc.toNat) : s.fetched = s := by
  rw [State.fetched, if_neg (by omega)]

theorem stepFault_of_decode_ok {s : State} {i : Instr} {rest : List Byte}
    (h : decode (s.bytesFrom s.pc.toNat 3) = .ok (i, rest)) : s.stepFault = s.execFault i := by
  rw [State.stepFault, maxInstrBytes, h]

theorem stepFault_of_decodeFault {s : State} {c : FaultCause}
    (h : decodeFault s (decode (s.bytesFrom s.pc.toNat 3)) = .error c) : s.stepFault = some c := by
  rw [State.stepFault, maxInstrBytes]
  rcases hd : decode (s.bytesFrom s.pc.toNat 3) with (_ | _ | _) | ⟨i, rest⟩ <;> rw [hd] at h <;> cases h <;> rfl

/-- Above 255 the fetch is the fault, with the address it would have read (R62). -/
theorem stepFault_of_pc_gt {s : State} (hp : 255 < s.pc.toNat) : s.stepFault = some (.boundsMemory s.pc.toNat) :=
  stepFault_of_decodeFault (by rw [bytesFrom_nil hp]; rfl)

/-- Bytes that decode begin inside memory. -/
theorem pc_le_of_decode_ok {s : State} {i : Instr} {rest : List Byte}
    (h : decode (s.bytesFrom s.pc.toNat 3) = .ok (i, rest)) : s.pc.toNat ≤ 255 := by
  by_contra hp
  rw [bytesFrom_nil (by omega)] at h
  cases h

/-- A step from RUNNING takes the fault of its fetch, or executes what the bytes at PC decode to. -/
theorem step_running_cases {s : State} (hs : s.run = .running) :
    (∃ c, decodeFault s (decode (s.bytesFrom s.pc.toNat 3)) = .error c ∧ step s = .next (s.fetched.raise c)) ∨
    ∃ i rest, decode (s.bytesFrom s.pc.toNat 3) = .ok (i, rest) ∧ step s = exec i s.fetched := by
  rw [step_running hs]
  rcases cycle_cases s with ⟨hp, hc⟩ | ⟨hp, c, hf, hc⟩ | ⟨hp, i, hf, hc⟩
  · rw [fetched_of_pc_gt hp]
    exact .inl ⟨_, by rw [bytesFrom_nil hp]; rfl, hc⟩
  · rw [fetchInstr_with_ir hp] at hf
    rw [fetched_of_pc_le hp]
    exact .inl ⟨c, hf, hc⟩
  · rw [fetchInstr_with_ir hp] at hf
    rw [fetched_of_pc_le hp]
    obtain ⟨rest, hd⟩ := decodeFault_eq_ok_iff.mp hf
    exact .inr ⟨i, rest, hd, hc⟩

/-- The inversion of a step by its fault list: the first fault of the list, taken after the fetch, or none and the
instruction at PC completes. -/
theorem step_faultsOrCompletes {s t : State} (h : step s = .next t) :
    (∃ c, s.stepFault = some c ∧ t = s.fetched.raise c) ∨
    (s.stepFault = none ∧ ∃ i rest, decode (s.bytesFrom s.pc.toNat 3) = .ok (i, rest) ∧
      exec i s.fetched = .next t ∧ t.run = runAfter i s) := by
  rcases step_running_cases (run_of_step_next h) with ⟨c, hc, he⟩ | ⟨i, rest, hd, he⟩
  · exact .inl ⟨c, stepFault_of_decodeFault hc, next_inj (he ▸ h)⟩
  · rw [stepFault_of_decode_ok hd]
    rw [he] at h
    rcases exec_faultsOrCompletes h with hfault | ⟨hnone, hr⟩
    · exact .inl hfault
    · exact .inr ⟨hnone, i, rest, hd, h, hr⟩

theorem step_next {s : State} (hs : s.run = .running) : ∃ t, step s = .next t := by
  rcases step_running_cases hs with ⟨c, -, he⟩ | ⟨i, rest, -, he⟩
  · exact ⟨_, he⟩
  · rw [he]
    exact exec_next i s.fetched

theorem step_of_stepFault {s : State} {c : FaultCause} (hs : s.run = .running) (hc : s.stepFault = some c) :
    step s = .next (s.fetched.raise c) := by
  obtain ⟨t, ht⟩ := step_next hs
  rcases step_faultsOrCompletes ht with ⟨c', hc', rfl⟩ | ⟨hnone, -⟩
  · rw [hc] at hc'
    cases hc'
    exact ht
  · rw [hc] at hnone
    cases hnone

/-- From RUNNING an instruction that completes leaves RUNNING or HALTED. -/
theorem runAfter_of_running {s : State} (hs : s.run = .running) (i : Instr) :
    runAfter i s = .running ∨ runAfter i s = .halted := by
  rw [runAfter, hs]
  split
  · exact .inr rfl
  · exact .inl rfl

theorem step_of_decode_ok {s : State} {i : Instr} {rest : List Byte} (hs : s.run = .running)
    (hd : decode (s.bytesFrom s.pc.toNat 3) = .ok (i, rest)) : step s = exec i s.fetched := by
  rcases step_running_cases hs with ⟨c, hc, -⟩ | ⟨j, rest', hd', he⟩
  · rw [hd] at hc
    cases hc
  · rw [hd] at hd'
    cases hd'
    exact he

/-! ### IR and the fetch -/

theorem Effect.ir_eq {i : Instr} {s t : State} (h : Effect i s t) : t.ir = s.ir := by
  cases h <;> rfl

/-- Whatever a step goes on to do, IR holds what its fetch gave. -/
theorem step_ir {s t : State} (h : step s = .next t) : t.ir = s.fetched.ir := by
  rcases step_faultsOrCompletes h with ⟨c, -, rfl⟩ | ⟨-, i, rest, -, he, -⟩
  · rfl
  · exact (exec_effect he).ir_eq

theorem step_ir_of_pc_le {s t : State} (hp : s.pc.toNat ≤ 255) (h : step s = .next t) :
    t.ir = s.mem.read s.pc.toNat := by
  rw [step_ir h, fetched_of_pc_le hp]

/-! ### The obligations on faulting steps -/

/-- Settles O40: the fetch of a step does what the decoder does. -/
theorem stepRunsTheDecodedInstruction : Obligations.StepRunsTheDecodedInstruction := by
  intro s i rest hs hd
  rw [step_of_decode_ok hs hd, fetched_of_pc_le (pc_le_of_decode_ok hd)]

/-- Settles O36: the inversion of the step read in both directions. -/
theorem stepsFaultExactlyByPriority : Obligations.StepsFaultExactlyByPriority := by
  refine fun s hs => ⟨fun c hc => step_of_stepFault hs hc, fun hnone => ?_⟩
  obtain ⟨t, ht⟩ := step_next hs
  rcases step_faultsOrCompletes ht with ⟨c, hc, -⟩ | ⟨-, i, rest, hd, -, hr⟩
  · rw [hc] at hnone
    cases hnone
  · have hp := pc_le_of_decode_ok hd
    exact ⟨t, ht, hp, step_ir_of_pc_le hp ht, hr ▸ runAfter_of_running hs i⟩

/-- A step that ends FAULTED took the first fault of its list. -/
theorem stepFault_of_faulted {s t : State} {r : FaultRecord} (h : step s = .next t) (hr : t.run = .faulted r) :
    s.stepFault = some r.cause ∧ r.address = s.pc ∧ t = s.fetched.raise r.cause := by
  rcases step_faultsOrCompletes h with ⟨c, hc, rfl⟩ | ⟨-, i, -, -, -, hrun⟩
  · cases hr
    exact ⟨hc, rfl, rfl⟩
  · rcases runAfter_of_running (run_of_step_next h) i with hi | hi <;> rw [hrun, hi] at hr <;> cases hr

/-- Settles O37: the one state a faulting step can end in differs from its start in run state and IR. -/
theorem faultsArePrecise : Obligations.FaultsArePrecise := by
  rintro s t ⟨address, cause⟩ h hr
  obtain ⟨-, rfl, rfl⟩ := stepFault_of_faulted h hr
  refine ⟨rfl, rfl, ?_⟩
  by_cases hp : s.pc.toNat ≤ 255
  · exact .inr (if_pos hp)
  · exact .inl (if_neg hp)

/-- Bytes that decode to HLT have no fault. -/
theorem stepFault_of_decode_hlt {s : State} {rest : List Byte}
    (h : decode (s.bytesFrom s.pc.toNat 3) = .ok (.hlt, rest)) : s.stepFault = none :=
  stepFault_of_decode_ok h

theorem step_halted_iff {s t : State} (h : step s = .next t) :
    t.run = .halted ↔ ∃ rest, decode (s.bytesFrom s.pc.toNat 3) = .ok (.hlt, rest) := by
  rcases step_faultsOrCompletes h with ⟨c, hc, rfl⟩ | ⟨-, i, rest, hd, -, hr⟩
  · refine ⟨RunState.noConfusion, fun ⟨rest, hd⟩ => ?_⟩
    rw [stepFault_of_decode_hlt hd] at hc
    cases hc
  · rw [hr, runAfter, run_of_step_next h, hd]
    by_cases hi : i = .hlt <;> simp [hi]

theorem step_faulted_iff {s t : State} (h : step s = .next t) (r : FaultRecord) :
    t.run = .faulted r ↔ s.stepFault = some r.cause ∧ r.address = s.pc := by
  constructor
  · intro hr
    obtain ⟨hc, ha, -⟩ := stepFault_of_faulted h hr
    exact ⟨hc, ha⟩
  · rintro ⟨hc, ha⟩
    rw [step_of_stepFault (run_of_step_next h) hc] at h
    rw [next_inj h, raise_run]
    exact congrArg (fun a => RunState.faulted ⟨a, r.cause⟩) ha.symm

theorem step_ne_next_of_not_running {s : State} (hs : s.run ≠ .running) (t : State) : step s ≠ .next t :=
  fun h => hs (run_of_step_next h)

/-- A stopped machine refuses an image (log 18). -/
theorem load_of_not_running {s : State} (hs : s.run ≠ .running) (bytes : List Byte) :
    s.load bytes = .refused .loadIntoStopped := by
  cases hr : s.run with
  | running => exact absurd hr hs
  | halted => exact load_halted hr bytes
  | faulted r => exact load_faulted hr bytes

/-- Settles O44: the run state after a step by its inversion, a stopped machine by the lemma of each host operation. -/
theorem runStateTransitions : Obligations.RunStateTransitions := by
  refine ⟨⟨rfl, rfl⟩, fun s t h => ⟨run_of_step_next h, step_halted_iff h, step_faulted_iff h⟩, fun s hs =>
    ⟨step_ne_next_of_not_running hs, runOnce_of_not_running hs, fun bytes t h => ?_, rfl⟩⟩
  rw [load_of_not_running hs] at h
  cases h

/-! ### Single faults of a step -/

/-- The fault of a byte without an entry comes before any operand is fetched (D21). -/
theorem step_of_lookup_none {s : State} (hs : s.run = .running) (hp : s.pc.toNat ≤ 255)
    (hnone : lookup (s.mem.read s.pc.toNat) = none) :
    step s = .next (s.fetched.raise (.unsupportedOpcode (s.mem.read s.pc.toNat))) := by
  have hf : s.fetchInstr (s.mem.read s.pc.toNat) = .error (.unsupportedOpcode (s.mem.read s.pc.toNat)) := by
    rw [State.fetchInstr, hnone]
  exact step_of_stepFault hs (stepFault_of_decodeFault ((fetchInstr_eq_decode s s rfl rfl hp).symm.trans hf))

/-- Settles O7: the entries by the mnemonic, and the step on a byte without one. -/
theorem dispatchLookup : Obligations.DispatchLookup := by
  refine ⟨fun ir e he => ?_, fun ir => ?_, fun s hs hp hnone => ?_⟩
  · obtain ⟨k, rfl, rfl⟩ := OpcodeMap.lookup_some he
    refine ⟨rfl, (countField_opcodeMap k).symm, (setsPcField_opcodeMap k).symm, ?_⟩
    rw [aluField_opcodeMap]
    rfl
  · rw [lookup, OpcodeMap.lookup, Option.map_eq_none_iff, mnemonicOf_none]
  · rw [step_of_lookup_none hs hp hnone, fetched_of_pc_le hp]
    rfl

/-- Settles O41: above 255 the fetch's fault, inside memory the byte that the fetch reads. -/
theorem fetchReadsTheCellAtPc : Obligations.FetchReadsTheCellAtPc := by
  refine ⟨fun s hs hp => ?_, fun s t hp h => step_ir_of_pc_le hp h, fun s t u v hm hw h => ?_⟩
  · rw [step_of_stepFault hs (stepFault_of_pc_gt hp), fetched_of_pc_gt hp]
    rfl
  · by_cases hp : s.pc.toNat < 256
    · rw [memWrite_ok s v hp] at hw
      cases hw
      rw [step_ir_of_pc_le (by exact Nat.le_of_lt_succ hp) h, read_write hm, if_pos rfl]
    · rw [memWrite_error s v (by omega)] at hw
      cases hw

end Sys2Proof.Machine
end

section
/-! O29, O38 (60_exceptions.md R114 to R118). The causes that the fault list of a step can hold, each with its detail in
its range; the Arithmetic fault is DIV's and MOD's alone. -/

namespace Sys2Proof.Machine

/-! ### Causes of an instruction -/

/-- Past the register operands, the fault of an instruction is its own. -/
theorem execFault_cases {s : State} {i : Instr} {c : FaultCause} (h : s.execFault i = some c) :
    (∃ b, ¬ b.toNat < 8 ∧ c = .boundsRegister b) ∨ s.ownFault i = some c := by
  rw [State.execFault] at h
  split at h
  next b hb =>
    cases h
    refine .inl ⟨b, ?_, rfl⟩
    simpa [Byte.isRegIndex] using List.find?_some hb
  next => exact .inr h

theorem pushFault_eq {s : State} {c : FaultCause} (h : s.pushFault = some c) : c = .boundsMemory (-1) := by
  rw [State.pushFault] at h
  split at h
  · exact (Option.some.inj h).symm
  · cases h

theorem ownFault_reachable {s : State} {i : Instr} {c : FaultCause} (hp : s.pc.toNat ≤ 255)
    (h : s.ownFault i = some c) : c.Reachable := by
  cases i with
  | div a b =>
    rw [State.ownFault, Option.ite_none_right_eq_some] at h
    cases h.2
    exact .inl rfl
  | mod a b =>
    rw [State.ownFault, Option.ite_none_right_eq_some] at h
    cases h.2
    exact .inr rfl
  | push a => exact pushFault_eq h ▸ .inl rfl
  | call a =>
    rw [State.ownFault] at h
    split at h
    · cases h
      simp only [FaultCause.Reachable]
      omega
    · exact pushFault_eq h ▸ .inl rfl
  | _ => cases h

theorem execFault_reachable {s : State} {i : Instr} {c : FaultCause} (hp : s.pc.toNat ≤ 255)
    (h : s.execFault i = some c) : c.Reachable := by
  rcases execFault_cases h with ⟨b, hb, rfl⟩ | hown
  · exact Nat.le_of_not_lt hb
  · exact ownFault_reachable hp hown

/-! ### Causes of a fetch -/

theorem memRead_eq_error {s : State} {a : Int} {c : FaultCause} (h : s.memRead a = .error c) :
    c = .boundsMemory a ∧ ¬ (0 ≤ a ∧ a < 256) := by
  rw [State.memRead, ← validAddress_iff] at *
  split at h
  · cases h
  next hv =>
    cases h
    exact ⟨rfl, hv⟩

/-- A sequence fails at its first part or at its second. -/
theorem bind_eq_error {α β : Type} {x : Except FaultCause α} {f : α → Except FaultCause β} {c : FaultCause}
    (h : (x >>= f) = .error c) : x = .error c ∨ ∃ a, x = .ok a ∧ f a = .error c := by
  cases x with
  | error c' =>
    cases h
    exact .inl rfl
  | ok a => exact .inr ⟨a, rfl, h⟩

theorem operandRead_reachable {s : State} {k : Int} (hk : k = 1 ∨ k = 2) {c : FaultCause} (hp : s.pc.toNat ≤ 255)
    (h : s.memRead (s.pc.toNat + k) = .error c) : c.Reachable := by
  obtain ⟨rfl, hv⟩ := memRead_eq_error h
  simp only [FaultCause.Reachable]
  omega

theorem fetchOperands_reachable {s : State} {n : Nat} {c : FaultCause} (hp : s.pc.toNat ≤ 255)
    (h : s.fetchOperands n = .error c) : c.Reachable := by
  match n with
  | 0 => cases h
  | 1 =>
    rcases bind_eq_error h with h1 | ⟨_, -, h⟩
    · exact operandRead_reachable (.inl rfl) hp h1
    · cases h
  | n + 2 =>
    rcases bind_eq_error h with h1 | ⟨_, -, h⟩
    · exact operandRead_reachable (.inl rfl) hp h1
    · rcases bind_eq_error h with h2 | ⟨_, -, h⟩
      · exact operandRead_reachable (.inr rfl) hp h2
      · cases h

theorem fetchInstr_reachable {s : State} {ir : Byte} {c : FaultCause} (hp : s.pc.toNat ≤ 255)
    (h : s.fetchInstr ir = .error c) : c.Reachable := by
  rw [State.fetchInstr] at h
  split at h
  next hnone =>
    cases h
    exact hnone
  next e _ =>
    rcases bind_eq_error h with ho | ⟨_, -, h⟩
    · exact fetchOperands_reachable hp ho
    · cases h

/-- Every fault of a step's list is one that the specification allows (R114 to R118). -/
theorem stepFault_reachable {s : State} {c : FaultCause} (hp : s.pc.toNat ≤ 258) (h : s.stepFault = some c) :
    c.Reachable := by
  by_cases hin : s.pc.toNat ≤ 255
  · cases hf : s.fetchInstr (s.mem.read s.pc.toNat) with
    | error c' =>
      rw [stepFault_of_decodeFault ((fetchInstr_eq_decode s s rfl rfl hin).symm.trans hf)] at h
      cases h
      exact fetchInstr_reachable hin hf
    | ok i =>
      obtain ⟨rest, hd⟩ := decodeFault_eq_ok_iff.mp ((fetchInstr_eq_decode s s rfl rfl hin).symm.trans hf)
      rw [stepFault_of_decode_ok hd] at h
      exact execFault_reachable hin h
  · rw [stepFault_of_pc_gt (by omega)] at h
    cases h
    simp only [FaultCause.Reachable]
    omega

/-- Settles O38: the fault of a step is on its list, and the list never holds that cause. -/
theorem unsupportedAluOperationIsUnreachable : Obligations.UnsupportedAluOperationIsUnreachable := by
  rintro s t ⟨address, cause⟩ sel h hr rfl
  obtain ⟨hc, -, -⟩ := stepFault_of_faulted h hr
  by_cases hp : s.pc.toNat ≤ 255
  · exact stepFault_reachable (by omega) hc
  · rw [stepFault_of_pc_gt (by omega)] at hc
    cases hc

/-! ### The Arithmetic fault -/

/-- The Arithmetic fault is that of a DIV or a MOD. -/
theorem ownFault_arithmetic {s : State} {i : Instr} {op : Byte} (h : s.ownFault i = some (.arithmetic op)) :
    ∃ a b, (i = .div a b ∨ i = .mod a b) ∧ s.operandValue b = 0 ∧ op = Config.opcodeMap i.mnemonic := by
  cases i with
  | div a b | mod a b =>
    rw [State.ownFault, Option.ite_none_right_eq_some] at h
    obtain ⟨hz, h⟩ := h
    cases h
    exact ⟨a, b, by simp, hz, rfl⟩
  | push a => cases pushFault_eq h
  | call a =>
    rw [State.ownFault] at h
    split at h
    · cases h
    · cases pushFault_eq h
  | _ => cases h

/-- Past the register checks, both operands name registers. -/
theorem registers_of_execFault_arithmetic {s : State} {i : Instr} {a b op : Byte} (hi : i.registerOperands = [a, b])
    (h : s.execFault i = some (.arithmetic op)) : a.toNat < 8 ∧ b.toNat < 8 := by
  rw [execFault_two s hi] at h
  by_cases ha : a.toNat < 8
  · by_cases hb : b.toNat < 8
    · exact ⟨ha, hb⟩
    · rw [if_pos ha, if_neg hb] at h
      cases h
  · rw [if_neg ha] at h
    cases h

theorem execFault_arithmetic {s : State} {i : Instr} {op : Byte} (h : s.execFault i = some (.arithmetic op)) :
    ∃ (a b : Byte) (hb : b.toNat < 8), (i = .div a b ∨ i = .mod a b) ∧ a.toNat < 8 ∧
      s.readReg ⟨b.toNat, hb⟩ = 0 ∧ op = Config.opcodeMap i.mnemonic := by
  rcases execFault_cases h with ⟨b, -, hb⟩ | hown
  · cases hb
  · obtain ⟨a, b, hi, hz, hop⟩ := ownFault_arithmetic hown
    have hregs : i.registerOperands = [a, b] := by rcases hi with rfl | rfl <;> rfl
    obtain ⟨ha, hb⟩ := registers_of_execFault_arithmetic hregs h
    exact ⟨a, b, hb, hi, ha, operandValue_reg hb ▸ hz, hop⟩

theorem runAfter_ne_faulted {s : State} (hs : s.NotFaulted) (i : Instr) (r : FaultRecord) :
    runAfter i s ≠ .faulted r := by
  rw [runAfter]
  split
  · exact RunState.noConfusion
  · exact hs r

/-- Settles O29: a zero divisor is the first fault of DIV's and MOD's lists, and of no other list. -/
theorem divisionByZeroFaults : Obligations.DivisionByZeroFaults := by
  constructor
  · intro s a b ha hb hz
    have hz' : s.operandValue b = 0 := (operandValue_reg hb).trans hz
    constructor
    · exact exec_of_execFault (by rw [execFault_two s rfl, if_pos ha, if_pos hb, State.ownFault, if_pos hz'])
    · exact exec_of_execFault (by rw [execFault_two s rfl, if_pos ha, if_pos hb, State.ownFault, if_pos hz'])
  · intro i s t address op hs h hr
    rcases exec_faultsOrCompletes h with ⟨c, hc, rfl⟩ | ⟨-, hrun⟩
    · cases hr
      obtain ⟨a, b, hb, hi, ha, hz, hop⟩ := execFault_arithmetic hc
      exact ⟨a, b, hb, hi, ha, hz, rfl, hop⟩
    · exact absurd (hrun.symm.trans hr) (runAfter_ne_faulted hs i _)

end Sys2Proof.Machine
end

section
/-! O43, O52 (10_state.md R16 to R18). The program counter: where an instruction can leave it, and why one that lies
inside memory cannot take it past 256. -/

namespace Sys2Proof.Machine

/-- As long as the sum fits in nine bits, the default advance is plain addition. -/
theorem advance_pc_toNat (s : State) {n : Nat} (h : s.pc.toNat + 1 + n < 512) :
    (s.advance n).pc.toNat = s.pc.toNat + 1 + n := by
  rw [advance_pc, BitVec.toNat_add, BitVec.toNat_ofNat]
  omega

/-- Settles O43: nine bits hold every sum. -/
theorem defaultAdvanceDoesNotWrap : Obligations.DefaultAdvanceDoesNotWrap :=
  fun s n hp hn => advance_pc_toNat s (by omega)

/-- Where `i` can leave PC: in 0 to 255 by a jump, where it was by a fault or a halt, or at the default advance. -/
def NextPc (i : Instr) (s t : State) : Prop :=
  t.pc.toNat ≤ 255 ∨ t.pc = s.pc ∨ t.pc = (s.advance i.operands.length).pc

@[simp] theorem writeBack_pc (s : State) (j : RegIndex) (r : AluOut) : (s.writeBack j r).pc = s.pc := by
  cases r <;> rfl

section
variable {i : Instr} {s t : State} {a b : Byte}

theorem nextPc_of_setPc (i : Instr) (s : State) {u : State} {target : Byte} (h : t = u.setPc target) : NextPc i s t :=
  .inl (h ▸ setPc_pc_le u target)

theorem nextPc_of_raise (i : Instr) {c : FaultCause} (h : t = s.raise c) : NextPc i s t :=
  .inr (.inl (h ▸ rfl))

/-- The default advance of an instruction with `n` operand bytes, after updates that keep PC. -/
theorem nextPc_of_advance {n : Nat} {u : State} (hi : i.operands.length = n) (h : t = u.advance n) (hu : u.pc = s.pc) :
    NextPc i s t :=
  .inr (.inr (by rw [h, hi, advance_pc, advance_pc, hu]))

theorem jumpIf_nextPc {taken : Bool} (hi : i.operands.length = 1) (h : jumpIf taken a s = .next t) : NextPc i s t := by
  rcases jumpIf_cases h with ⟨_, ht⟩ | ⟨-, ht⟩
  · cases taken
    · exact nextPc_of_advance hi ht rfl
    · exact nextPc_of_setPc i s ht
  · exact nextPc_of_raise i ht

theorem emitReg_nextPc {event : Byte → OutEvent} (hi : i.operands.length = 1) (h : emitReg event a s = .next t) :
    NextPc i s t := by
  rcases emitReg_cases h with ⟨_, ht⟩ | ⟨-, ht⟩
  · exact nextPc_of_advance hi ht rfl
  · exact nextPc_of_raise i ht

theorem aluUnary_nextPc {op : AluOp} (ho : op ≠ .div ∧ op ≠ .mod) (hi : i.operands.length = 1)
    (h : aluUnary op a s = .next t) : NextPc i s t := by
  rcases aluUnary_cases ho h with ⟨_, r, -, ht⟩ | ⟨-, ht⟩
  · exact nextPc_of_advance hi ht (writeBack_pc ..)
  · exact nextPc_of_raise i ht

theorem aluBinary_nextPc {op : AluOp} (hi : i.operands.length = 2) (h : aluBinary op a b s = .next t) :
    NextPc i s t := by
  rcases aluBinary_cases h with ⟨_, _, r, -, ht⟩ | ⟨_, _, -, -, ht⟩ | ⟨_, -, ht⟩
  · exact nextPc_of_advance hi ht (writeBack_pc ..)
  · exact nextPc_of_raise i ht
  · exact nextPc_of_raise i ht

end

theorem exec_nextPc {i : Instr} {s t : State} (h : exec i s = .next t) : NextPc i s t := by
  cases i with
  | hlt =>
    have ht : t = s.halt := next_inj h
    exact .inr (.inl (ht ▸ rfl))
  | ldi a imm =>
    rcases execLdi_cases h with ⟨_, ht⟩ | ⟨-, ht⟩
    · exact nextPc_of_advance rfl ht rfl
    · exact nextPc_of_raise _ ht
  | push a =>
    rcases execPush_cases h with ⟨_, -, ht⟩ | ⟨-, -, ht⟩ | ⟨-, ht⟩
    · exact nextPc_of_advance rfl ht rfl
    · exact nextPc_of_raise _ ht
    · exact nextPc_of_raise _ ht
  | pop a =>
    rcases execPop_cases h with ⟨_, ht⟩ | ⟨-, ht⟩
    · exact nextPc_of_advance rfl ht rfl
    · exact nextPc_of_raise _ ht
  | call a =>
    rcases execCall_cases h with ⟨_, -, -, ht⟩ | ⟨-, -, ht⟩ | ⟨-, -, -, ht⟩ | ⟨-, ht⟩
    · exact nextPc_of_setPc _ s ht
    · exact nextPc_of_raise _ ht
    · exact nextPc_of_raise _ ht
    · exact nextPc_of_raise _ ht
  | ret => exact nextPc_of_setPc _ s (next_inj ((execRet_ok s).symm.trans h))
  | prn a | pra a => exact emitReg_nextPc rfl h
  | jmp a | jeq a | jne a | jgt a | jlt a | jle a | jge a => exact jumpIf_nextPc rfl h
  | inc a | dec a | not a => exact aluUnary_nextPc (by decide) rfl h
  | cmp a b | add a b | sub a b | mul a b | div a b | mod a b | and a b | or a b | xor a b | shl a b | shr a b =>
    exact aluBinary_nextPc rfl h

theorem bytesFrom_length_le {s : State} (hp : s.pc.toNat ≤ 255) :
    (s.bytesFrom s.pc.toNat 3).length ≤ 256 - s.pc.toNat := by
  rw [bytesFrom_three]
  split_ifs <;> simp <;> omega

/-- An instruction that decodes at PC lies inside memory, with all its operands. -/
theorem decoded_fits {s : State} {i : Instr} {rest : List Byte}
    (hd : decode (s.bytesFrom s.pc.toNat 3) = .ok (i, rest)) : s.pc.toNat + 1 + i.operands.length ≤ 256 := by
  have hp := pc_le_of_decode_ok hd
  have hlen := bytesFrom_length_le hp
  rw [← decodedBytesAreTheEncoding _ _ _ _ hd, OpcodeMap.encode, List.length_append, List.length_cons] at hlen
  omega

/-- A step leaves PC where it was, by a fault or a halt, or in 0 to 256. -/
theorem step_pc {s t : State} (h : step s = .next t) : t.pc = s.pc ∨ t.pc.toNat ≤ 256 := by
  rcases step_faultsOrCompletes h with ⟨c, -, rfl⟩ | ⟨-, i, rest, hd, he, -⟩
  · exact .inl rfl
  · rcases exec_nextPc he with hjump | hsame | hadv
    · exact .inr (by omega)
    · exact .inl hsame
    · have hfits := decoded_fits hd
      have hsum := advance_pc_toNat s (n := i.operands.length) (by omega)
      exact .inr (by rw [hadv]; exact hsum.trans_le hfits)

/-- Settles O52: a PC that stays is at most 256 already. -/
theorem pcNeverPasses256 : Obligations.PcNeverPasses256 := by
  intro s t hp h
  rcases step_pc h with hsame | hle
  · exact hsame ▸ hp
  · exact hle

end Sys2Proof.Machine
end

section
/-! O45, O47, O48, O53, O54 (10_state.md R15, R20, R21, 20_memory.md R32). What a single effect can change, field by
field, and the invariant that follows: it holds at reset and every step keeps it. -/

namespace Sys2Proof.Machine

/-! ### FL -/

/-- FL after an effect: as before, or the flags of CMP's outcome. -/
theorem Effect.fl_cases {i : Instr} {s t : State} (h : Effect i s t) :
    t.fl = s.fl ∨ ∃ a b o, i = .cmp a b ∧ t.fl = CompareOutcome.flags o := by
  cases h with
  | compared a b _ o => exact .inr ⟨a, b, o, rfl, rfl⟩
  | _ => exact .inl rfl

/-- Settles O45: of the effects only CMP's touches FL. -/
theorem onlyCmpWritesFlags : Obligations.OnlyCmpWritesFlags := by
  intro i s t h hne
  rcases (exec_effect h).fl_cases with heq | ⟨a, b, -, hi, -⟩
  · exact absurd heq hne
  · exact ⟨a, b, hi⟩

theorem flags_legal (o : CompareOutcome) : legalFlags o.flags := by
  cases o with
  | equal => exact .inr (.inl rfl)
  | greater => exact .inr (.inr (.inl rfl))
  | less => exact .inr (.inr (.inr rfl))

/-! ### Memory -/

/-- Memory after an effect: as before, or one cell written below a stack pointer that is not 0. -/
theorem Effect.mem_cases {i : Instr} {s t : State} (h : Effect i s t) :
    t.mem = s.mem ∨
      ((∃ a, i = .push a ∨ i = .call a) ∧ s.sp.toNat ≠ 0 ∧ ∃ v, t.mem = s.mem.write (s.sp.toNat - 1) v) := by
  cases h with
  | pushed a _ v hs => exact .inr ⟨⟨a, .inl rfl⟩, hs, v, rfl⟩
  | called a _ v _ hs => exact .inr ⟨⟨a, .inr rfl⟩, hs, v, rfl⟩
  | _ => exact .inl rfl

/-- Settles O47: a write leaves the cells alone that it does not name. -/
theorem onlyPushAndCallWriteMemory : Obligations.OnlyPushAndCallWriteMemory := by
  intro i s t x h hne
  rcases (exec_effect h).mem_cases with heq | ⟨hi, hs, v, hmem⟩
  · exact absurd (by rw [heq]) hne
  · refine ⟨hi, fun hz => hs (by rw [hz]; rfl), ?_⟩
    by_contra hx
    exact hne (by rw [hmem, read_write_ne _ (Ne.symm hx)])

theorem Effect.mem_wf {i : Instr} {s t : State} (h : Effect i s t) (hm : s.mem.wf = true) : t.mem.wf = true := by
  rcases h.mem_cases with heq | ⟨-, -, v, hmem⟩
  · rw [heq, hm]
  · have hlt : s.sp.toNat - 1 < 256 := (Nat.sub_le _ _).trans_lt s.sp.isLt
    rw [hmem, write_wf hm hlt]

/-! ### Registers -/

/-- Settles O48: the inversion of `exec` against the table. -/
theorem registersWrittenAreThoseOfTheTable : Obligations.RegistersWrittenAreThoseOfTheTable :=
  fun _ _ _ _ h hne => (exec_effect h).mem_writtenRegs hne

/-! ### The invariant -/

/-- Settles O53: the reset state by its fields. -/
theorem invariantHoldsAtReset : Obligations.InvariantHoldsAtReset :=
  ⟨reset_mem_wf, by decide, .inl rfl, fun _ h => RunState.noConfusion h⟩

/-- After its fetch a step has one effect: the fault it takes, which is an effect of any instruction, or that of the
instruction it executes. -/
theorem step_effect {s t : State} (h : step s = .next t) : ∃ i, Effect i s.fetched t := by
  rcases step_faultsOrCompletes h with ⟨c, -, rfl⟩ | ⟨-, i, -, -, he, -⟩
  · exact ⟨.hlt, .raised _ _ c⟩
  · exact ⟨i, exec_effect he⟩

/-- Settles O54 field by field: memory and FL by the step's effect, PC by its bound, the record by the fault list. -/
theorem everyStepKeepsTheInvariant : Obligations.EveryStepKeepsTheInvariant := by
  rintro s t ⟨hmem, hpc, hfl, -⟩ h
  obtain ⟨i, heff⟩ := step_effect h
  refine ⟨heff.mem_wf hmem, ?_, ?_, fun r hr => ?_⟩
  · rcases step_pc h with hsame | hle
    · exact hsame ▸ hpc
    · omega
  · rcases heff.fl_cases with hsame | ⟨-, -, o, -, hflags⟩
    · exact hsame ▸ hfl
    · exact hflags ▸ flags_legal o
  · obtain ⟨hc, haddr, ht⟩ := stepFault_of_faulted h hr
    exact ⟨by rw [haddr, ht]; rfl, stepFault_reachable hpc hc⟩

end Sys2Proof.Machine
end

section
/-! O9, O11, O13, O14 (10_state.md R12, 41_system_load_output.md R75 to R78), and the frames of the small updates that
the instructions below are made of. -/

namespace Sys2Proof.Machine

/-! ### Frames -/

theorem Frame.refl (w : Writes) (s : State) : Frame w s s :=
  ⟨fun _ _ => rfl, fun _ _ => rfl, rfl, fun _ => rfl, fun _ => rfl, fun _ => rfl⟩

/-- PC is in every frame. -/
theorem Frame.advance {w : Writes} {s t : State} (h : Frame w s t) (n : Nat) : Frame w s (t.advance n) := h

theorem Frame.setPc {w : Writes} {s t : State} (h : Frame w s t) (target : Byte) : Frame w s (t.setPc target) := h

theorem frame_emit (s : State) (e : OutEvent) : Frame { out := true } s (s.emit e) :=
  ⟨fun _ _ => rfl, fun _ _ => rfl, rfl, fun _ => rfl, fun _ => rfl, Bool.noConfusion⟩

theorem frame_setFlags (s : State) (o : CompareOutcome) : Frame { fl := true } s (s.setFlags o) :=
  ⟨fun _ _ => rfl, fun _ _ => rfl, rfl, Bool.noConfusion, fun _ => rfl, fun _ => rfl⟩

/-! ### The register file's write port -/

/-- The increment of the stack pointer is modulo 256 (D14). -/
@[simp] theorem incSp_sp (s : State) : s.incSp.sp = s.sp + 1 := by
  have h : (s.incSp.sp.toNat : Int) = (s.sp.toNat + 1 : Int) % 256 := by rw [State.incSp, setSp_sp, mask8_toNat]
  apply BitVec.eq_of_toNat_eq
  rw [BitVec.toNat_add]
  change _ = (s.sp.toNat + 1) % 256
  omega

/-- Settles O9: the two ports in and out of range, and the mask at the stack pointer. -/
theorem registerWritesAreMasked : Obligations.RegisterWritesAreMasked := by
  refine ⟨fun s index value => ⟨fun h => ?_, fun h => ?_⟩, fun s hs => by rw [incSp_sp, hs]; rfl⟩
  · refine ⟨_, regWrite_ok s value h, regRead_ok _ h, ?_, fun j hj => ?_, rfl⟩
    · rw [readReg_writeReg_same, mask8_toNat]
    · exact readReg_writeReg_ne s value fun e => hj (by rw [← e])
  · exact ⟨regWrite_error s value (by omega), regRead_error s (by omega)⟩

/-! ### Prints -/

theorem emitReg_appends (event : Byte → OutEvent) {a : Byte} (s : State) (ha : a.toNat < 8) :
    ∃ t, emitReg event a s = .next t ∧ t.out = s.out ++ [event (s.readReg ⟨a.toNat, ha⟩)] ∧ t.pc = s.pc + 2 ∧
      Frame { out := true } s t :=
  ⟨_, emitReg_ok event s ha, rfl, rfl, (frame_emit s _).advance 1⟩

/-- Settles O13: both prints are one shape. -/
theorem printsAppendOneEvent : Obligations.PrintsAppendOneEvent :=
  fun s _ ha => ⟨emitReg_appends .dec s ha, emitReg_appends .chr s ha⟩

/-- The digits of a byte are a numeral of it without leading zeros. -/
theorem decimalDigits_numeral (v : Byte) :
    (∀ d ∈ decimalDigits v, d ≤ 9) ∧ (decimalDigits v).foldl (fun n d => 10 * n + d) 0 = v.toNat ∧
      decimalDigits v ≠ [] ∧ ((decimalDigits v).head? = some 0 → v.toNat = 0 ∧ (decimalDigits v).length = 1) := by
  have hv := v.isLt
  unfold decimalDigits
  split_ifs with h10 h100
  · simp
    omega
  · simp
    omega
  · simp
    omega

/-- Settles O14: the numeral's digits are those of `decimalDigits`. -/
theorem outputEventsRender : Obligations.OutputEventsRender :=
  fun v => ⟨⟨decimalDigits v, rfl, decimalDigits_numeral v⟩, rfl⟩

/-- Settles O11: HLT is the halt of the shared operations. -/
theorem hltHalts : Obligations.HltHalts := fun _ => rfl

end Sys2Proof.Machine
end

section
/-! O22 to O26 (43_compare_branch.md R87 to R96). CMP as one of three outcomes, and the shape of the seven jumps. -/

namespace Sys2Proof.Machine

/-- The outcome of a comparison, with the relation it stands for. -/
theorem compareBytes_cases (x y : Byte) :
    (x.toNat = y.toNat ∧ compareBytes x y = .equal) ∨ (x.toNat > y.toNat ∧ compareBytes x y = .greater) ∨
      (x.toNat < y.toNat ∧ compareBytes x y = .less) := by
  unfold compareBytes
  split_ifs with heq hgt
  · exact .inl ⟨heq, rfl⟩
  · exact .inr (.inl ⟨hgt, rfl⟩)
  · exact .inr (.inr ⟨by omega, rfl⟩)

theorem exec_cmp_ok {a b : Byte} (s : State) (ha : a.toNat < 8) (hb : b.toNat < 8) :
    exec (.cmp a b) s =
      .next ((s.setFlags (compareBytes (s.readReg ⟨a.toNat, ha⟩) (s.readReg ⟨b.toNat, hb⟩))).advance 2) :=
  aluBinary_ok (op := .cmp) (r := .compare _) s ha hb rfl

/-- Each of the three flag values stands for its relation. -/
theorem compareBytes_flags_iff (x y : Byte) :
    ((compareBytes x y).flags = 0b001 ↔ x.toNat = y.toNat) ∧ ((compareBytes x y).flags = 0b010 ↔ x.toNat > y.toNat) ∧
      ((compareBytes x y).flags = 0b100 ↔ x.toNat < y.toNat) := by
  rcases compareBytes_cases x y with ⟨h, e⟩ | ⟨h, e⟩ | ⟨h, e⟩ <;> rw [e] <;> simp [CompareOutcome.flags] <;> omega

/-- Settles O22: CMP sets the flags of its outcome and advances. -/
theorem cmpSetsExactlyOneFlag : Obligations.CmpSetsExactlyOneFlag := by
  intro s a b ha hb
  obtain ⟨heq, hgt, hlt⟩ := compareBytes_flags_iff (s.readReg ⟨a.toNat, ha⟩) (s.readReg ⟨b.toNat, hb⟩)
  exact ⟨_, exec_cmp_ok s ha hb, heq, hgt, hlt, rfl, (frame_setFlags s _).advance 2⟩

/-- Settles O26: the conditions on the three flag values. -/
theorem jumpsAfterCmpTestTheRelation : Obligations.JumpsAfterCmpTestTheRelation := by
  intro s t a b ha hb h
  rw [exec_cmp_ok s ha hb] at h
  rw [next_inj h, advance_fl, setFlags_fl]
  rcases compareBytes_cases (s.readReg ⟨a.toNat, ha⟩) (s.readReg ⟨b.toNat, hb⟩) with ⟨hr, e⟩ | ⟨hr, e⟩ | ⟨hr, e⟩ <;>
    rw [e] <;>
    simp [CompareOutcome.flags, condJeq, condJne, condJgt, condJlt, condJle, condJge, flagE, flagG, flagL] <;> omega

theorem jumpIf_goes (taken : Bool) {a : Byte} (s : State) (ha : a.toNat < 8) :
    ∃ t, jumpIf taken a s = .next t ∧
      t.pc = (if taken then (s.readReg ⟨a.toNat, ha⟩).setWidth 9 else s.pc + 2) ∧ Frame {} s t := by
  refine ⟨_, jumpIf_ok taken s ha, ?_⟩
  cases taken with
  | true => exact ⟨rfl, (Frame.refl _ s).setPc _⟩
  | false => exact ⟨rfl, (Frame.refl _ s).advance 1⟩

/-- Settles O24: each jump is the shape above with its own condition. -/
theorem conditionalJumpsFollowTheirFlags : Obligations.ConditionalJumpsFollowTheirFlags := by
  intro s a ha i taken hi
  simp only [List.mem_cons, Prod.mk.injEq, List.not_mem_nil, or_false] at hi
  rcases hi with ⟨rfl, rfl⟩ | ⟨rfl, rfl⟩ | ⟨rfl, rfl⟩ | ⟨rfl, rfl⟩ | ⟨rfl, rfl⟩ | ⟨rfl, rfl⟩ <;>
    exact jumpIf_goes _ s ha

/-- Settles O23: JMP is the shape above, always taken. -/
theorem jmpGoesToItsRegister : Obligations.JmpGoesToItsRegister := by
  intro s a ha
  obtain ⟨t, ht, hpc, hframe⟩ := jumpIf_goes true s ha
  exact ⟨t, ht, by rw [hpc, if_pos rfl, BitVec.toNat_setWidth_of_le (by decide)], hframe⟩

/-- Settles O25: the conditions run on the four values. -/
theorem jumpOutcomeTable : Obligations.JumpOutcomeTable := rfl

end Sys2Proof.Machine
end

section
/-! O27, O28, O30 to O33 (44_alu.md R97 to R112). The ALU instructions as one register write of the masked exact result,
and what the mask makes of each operation. -/

namespace Sys2Proof.Machine

/-- What an ALU instruction with `n` operand bytes does that writes `v` into register `r`. -/
def WritesResult (r : RegIndex) (v : Byte) (n : Nat) (s t : State) : Prop :=
  t.readReg r = v ∧ t.pc = s.pc + BitVec.ofNat 9 (1 + n) ∧ Frame { regs := [r] } s t

theorem writesResult_writeBack (s : State) (r : RegIndex) (v : Byte) (n : Nat) :
    WritesResult r v n s ((s.writeBack r (.result v)).advance n) := by
  refine ⟨?_, rfl, frame_writeReg_advance s r v.toNat n⟩
  rw [advance_readReg, State.writeBack, readReg_writeReg_same, mask8_natCast_byte]

/-- An operation other than CMP, with no zero divisor, gives the masked exact result. -/
theorem aluRun_result {op : AluOp} (hc : op ≠ .cmp) {x y : Byte} (hz : op = .div ∨ op = .mod → y ≠ 0) :
    op.run x y = .ok (.result (mask8 (op.exact x.toNat y.toNat))) := by
  rcases aluRun_cases op x y with ⟨h, -⟩ | ⟨ho, hy, -⟩ | ⟨-, -, hr⟩
  · exact absurd h hc
  · exact absurd hy (hz ho)
  · exact hr

section
variable {op : AluOp} {a b : Byte} (s : State) (ha : a.toNat < 8) (hb : b.toNat < 8)

theorem aluBinary_writes (hc : op ≠ .cmp) (hz : op = .div ∨ op = .mod → s.readReg ⟨b.toNat, hb⟩ ≠ 0) :
    ∃ t, aluBinary op a b s = .next t ∧ WritesResult ⟨a.toNat, ha⟩
      (mask8 (op.exact (s.readReg ⟨a.toNat, ha⟩).toNat (s.readReg ⟨b.toNat, hb⟩).toNat)) 2 s t :=
  ⟨_, aluBinary_ok s ha hb (aluRun_result hc hz), writesResult_writeBack s _ _ 2⟩

theorem aluUnary_writes (hc : op ≠ .cmp) (hz : ¬ (op = .div ∨ op = .mod)) :
    ∃ t, aluUnary op a s = .next t ∧ WritesResult ⟨a.toNat, ha⟩
      (mask8 (op.exact (s.readReg ⟨a.toNat, ha⟩).toNat 0)) 1 s t :=
  ⟨_, aluUnary_ok s ha (aluRun_result hc fun h => absurd h hz), writesResult_writeBack s _ _ 1⟩

end

/-! ### What the mask makes of a result -/

theorem mask8_natCast (n : Nat) : (mask8 (n : Int)).toNat = n % 256 := by
  exact_mod_cast mask8_toNat n

/-- A result that fits in a byte passes the mask as it is. -/
theorem mask8_natCast_toNat {n : Nat} (h : n < 256) : (mask8 (n : Int)).toNat = n := by
  rw [mask8_natCast, Nat.mod_eq_of_lt h]

theorem mask8_and (x y : Byte) : mask8 ((x.toNat &&& y.toNat : Nat) : Int) = x &&& y := by
  rw [← BitVec.toNat_and, mask8_natCast_byte]

theorem mask8_or (x y : Byte) : mask8 ((x.toNat ||| y.toNat : Nat) : Int) = x ||| y := by
  rw [← BitVec.toNat_or, mask8_natCast_byte]

theorem mask8_xor (x y : Byte) : mask8 ((x.toNat ^^^ y.toNat : Nat) : Int) = x ^^^ y := by
  rw [← BitVec.toNat_xor, mask8_natCast_byte]

/-- NOT's exact integer, -1 minus the byte, and 255 minus the byte agree modulo 256. -/
theorem not_emod_256 (n : Nat) : (~~~(n : Int)) % 256 = (255 - n) % 256 := by
  change Int.negSucc n % 256 = _
  rw [Int.negSucc_eq]
  omega

/-- A left shift by 8 or more moves every bit out. -/
theorem shl_emod_eq_zero (x : Nat) {k : Nat} (hk : 8 ≤ k) : x * 2 ^ k % 256 = 0 :=
  Nat.mod_eq_zero_of_dvd (Dvd.dvd.mul_left (pow_dvd_pow 2 hk) x)

/-- A right shift of a byte by 8 or more moves every bit out. -/
theorem shr_eq_zero (x : Byte) {k : Nat} (hk : 8 ≤ k) : x.toNat / 2 ^ k = 0 :=
  Nat.div_eq_of_lt (x.isLt.trans_le (Nat.pow_le_pow_right (by decide) hk))

/-! ### The obligations on the ALU -/

/-- What the statements say of an instruction whose exact result is the integer `r`. -/
def WritesRemainder (j : RegIndex) (r : Int) (n : PcWord) (s t : State) : Prop :=
  ((t.readReg j).toNat : Int) = r % 256 ∧ t.pc = s.pc + n ∧ Frame { regs := [j] } s t

theorem aluBinary_remainder {op : AluOp} {a b : Byte} (s : State) (ha : a.toNat < 8) (hb : b.toNat < 8)
    (hop : op ≠ .cmp ∧ ¬ (op = .div ∨ op = .mod)) :
    ∃ t, aluBinary op a b s = .next t ∧ WritesRemainder ⟨a.toNat, ha⟩
      (op.exact (s.readReg ⟨a.toNat, ha⟩).toNat (s.readReg ⟨b.toNat, hb⟩).toNat) 3 s t := by
  obtain ⟨t, ht, hv, hpc, hframe⟩ := aluBinary_writes s ha hb hop.1 fun h => absurd h hop.2
  exact ⟨t, ht, by rw [hv, mask8_toNat], hpc, hframe⟩

/-- Settles O27: the masked exact result is the remainder modulo 256. -/
theorem addSubMulWrapModulo256 : Obligations.AddSubMulWrapModulo256 := by
  intro s a b ha hb i r hi
  simp only [List.mem_cons, Prod.mk.injEq, List.not_mem_nil, or_false] at hi
  rcases hi with ⟨rfl, rfl⟩ | ⟨rfl, rfl⟩ | ⟨rfl, rfl⟩
  · exact aluBinary_remainder (op := .add) s ha hb (by decide)
  · exact aluBinary_remainder (op := .sub) s ha hb (by decide)
  · exact aluBinary_remainder (op := .mul) s ha hb (by decide)

theorem aluUnary_remainder {op : AluOp} {a : Byte} (s : State) (ha : a.toNat < 8)
    (hop : op ≠ .cmp ∧ ¬ (op = .div ∨ op = .mod)) {r : Int}
    (hr : op.exact (s.readReg ⟨a.toNat, ha⟩).toNat 0 % 256 = r % 256) :
    ∃ t, aluUnary op a s = .next t ∧ WritesRemainder ⟨a.toNat, ha⟩ r 2 s t := by
  obtain ⟨t, ht, hv, hpc, hframe⟩ := aluUnary_writes s ha hop.1 hop.2
  exact ⟨t, ht, by rw [hv, mask8_toNat, hr], hpc, hframe⟩

/-- Settles O32: as O27; for NOT the exact integer differs from 255 minus the byte by 256. -/
theorem unaryAluWorksInPlace : Obligations.UnaryAluWorksInPlace := by
  intro s a ha i r hi
  simp only [List.mem_cons, Prod.mk.injEq, List.not_mem_nil, or_false] at hi
  rcases hi with ⟨rfl, rfl⟩ | ⟨rfl, rfl⟩ | ⟨rfl, rfl⟩
  · exact aluUnary_remainder (op := .inc) s ha (by decide) rfl
  · exact aluUnary_remainder (op := .dec) s ha (by decide) rfl
  · exact aluUnary_remainder (op := .not) s ha (by decide) (not_emod_256 _)

/-- Settles O28: neither quotient nor remainder is changed by the mask. -/
theorem divModGiveQuotientAndRemainder : Obligations.DivModGiveQuotientAndRemainder := by
  intro s a b ha hb hz
  obtain ⟨t, ht, htv, htpc, htframe⟩ := aluBinary_writes (op := .div) s ha hb (by decide) fun _ => hz
  obtain ⟨u, hu, huv, hupc, huframe⟩ := aluBinary_writes (op := .mod) s ha hb (by decide) fun _ => hz
  have hpos : 0 < (s.readReg ⟨b.toNat, hb⟩).toNat := Nat.pos_of_ne_zero fun h => hz (BitVec.eq_of_toNat_eq h)
  have hlt : (s.readReg ⟨a.toNat, ha⟩).toNat < 256 := (s.readReg ⟨a.toNat, ha⟩).isLt
  have hq : (t.readReg ⟨a.toNat, ha⟩).toNat = (s.readReg ⟨a.toNat, ha⟩).toNat / (s.readReg ⟨b.toNat, hb⟩).toNat :=
    htv ▸ mask8_natCast_toNat ((Nat.div_le_self _ _).trans_lt hlt)
  have hm : (u.readReg ⟨a.toNat, ha⟩).toNat = (s.readReg ⟨a.toNat, ha⟩).toNat % (s.readReg ⟨b.toNat, hb⟩).toNat :=
    huv ▸ mask8_natCast_toNat ((Nat.mod_le _ _).trans_lt hlt)
  refine ⟨t, u, ht, hu, ?_, hm ▸ Nat.mod_lt _ hpos, htpc, hupc, htframe, huframe⟩
  rw [hq, hm, Nat.div_add_mod]

theorem aluBinary_bitwise {op : AluOp} {a b : Byte} (s : State) (ha : a.toNat < 8) (hb : b.toNat < 8)
    (hop : op ≠ .cmp ∧ ¬ (op = .div ∨ op = .mod)) {f : Bool → Bool → Bool}
    (hf : ∀ (x y : Byte) (k : Nat), (mask8 (op.exact x.toNat y.toNat)).getLsbD k = f (x.getLsbD k) (y.getLsbD k)) :
    ∃ t, aluBinary op a b s = .next t ∧
      (∀ k, k < 8 → (t.readReg ⟨a.toNat, ha⟩).getLsbD k =
        f ((s.readReg ⟨a.toNat, ha⟩).getLsbD k) ((s.readReg ⟨b.toNat, hb⟩).getLsbD k)) ∧
      t.pc = s.pc + 3 ∧ Frame { regs := [⟨a.toNat, ha⟩] } s t := by
  obtain ⟨t, ht, hv, hpc, hframe⟩ := aluBinary_writes s ha hb hop.1 fun h => absurd h hop.2
  exact ⟨t, ht, fun k _ => by rw [hv, hf], hpc, hframe⟩

/-- Settles O30: on bytes the exact results are the bit operations. -/
theorem bitwiseWorksBitByBit : Obligations.BitwiseWorksBitByBit := by
  intro s a b ha hb i f hi
  simp only [List.mem_cons, Prod.mk.injEq, List.not_mem_nil, or_false] at hi
  rcases hi with ⟨rfl, rfl⟩ | ⟨rfl, rfl⟩ | ⟨rfl, rfl⟩
  · refine aluBinary_bitwise (op := .and) s ha hb (by decide) fun x y k => ?_
    rw [AluOp.exact, mask8_and, BitVec.getLsbD_and]
  · refine aluBinary_bitwise (op := .or) s ha hb (by decide) fun x y k => ?_
    rw [AluOp.exact, mask8_or, BitVec.getLsbD_or]
  · refine aluBinary_bitwise (op := .xor) s ha hb (by decide) fun x y k => ?_
    rw [AluOp.exact, mask8_xor, BitVec.getLsbD_xor]

/-- Settles O31: SHL's product is masked, SHR's quotient fits; a power of two from 256 up leaves no bit of either. -/
theorem shiftsUseTheWholeCount : Obligations.ShiftsUseTheWholeCount := by
  intro s a b ha hb
  obtain ⟨t, ht, htv, htpc, htframe⟩ := aluBinary_writes (op := .shl) s ha hb (by decide) fun h => absurd h (by decide)
  obtain ⟨u, hu, huv, hupc, huframe⟩ := aluBinary_writes (op := .shr) s ha hb (by decide) fun h => absurd h (by decide)
  have hshl : (t.readReg ⟨a.toNat, ha⟩).toNat =
      (s.readReg ⟨a.toNat, ha⟩).toNat * 2 ^ (s.readReg ⟨b.toNat, hb⟩).toNat % 256 :=
    htv ▸ mask8_natCast _
  have hshr : (u.readReg ⟨a.toNat, ha⟩).toNat =
      (s.readReg ⟨a.toNat, ha⟩).toNat / 2 ^ (s.readReg ⟨b.toNat, hb⟩).toNat :=
    huv ▸ mask8_natCast_toNat ((Nat.div_le_self _ _).trans_lt (s.readReg ⟨a.toNat, ha⟩).isLt)
  refine ⟨t, u, ht, hu, hshl, hshr, fun h8 => ⟨?_, ?_⟩, htpc, hupc, htframe, huframe⟩
  · exact BitVec.eq_of_toNat_eq (hshl.trans (shl_emod_eq_zero _ h8))
  · exact BitVec.eq_of_toNat_eq (hshr.trans (shr_eq_zero _ h8))

/-! ### The ALU's own interface -/

theorem aluOpOfSelector_none_iff (sel : BitVec 4) : aluOpOfSelector sel = none ↔ sel = 14 ∨ sel = 15 := by
  revert sel
  decide

theorem aluRun_ne_unsupported (op : AluOp) (a b : Byte) (sel : BitVec 4) :
    op.run a b ≠ .error (.unsupportedAluOperation sel) := by
  rcases aluRun_cases op a b with ⟨-, hr⟩ | ⟨-, -, hr⟩ | ⟨-, -, hr⟩ <;> simp [hr]

/-- Settles O33: a defined operation never answers so, and the selectors without an operation are two. -/
theorem onlyUndefinedSelectorsAreUnsupported : Obligations.OnlyUndefinedSelectorsAreUnsupported := by
  intro sel a b
  rw [← aluOpOfSelector_none_iff, aluApply]
  cases aluOpOfSelector sel with
  | none => exact ⟨fun _ => rfl, fun _ => rfl⟩
  | some op => exact ⟨fun h => absurd h (aluRun_ne_unsupported op a b sel), nofun⟩

end Sys2Proof.Machine
end

section
/-! O15 to O20, O42 (42_stack_call.md R80 to R86, 20_memory.md R43). The stack pointer's two updates, the four
instructions built on them, and the laws that a push and the matching pop make together. -/

namespace Sys2Proof.Machine

/-! ### The stack pointer among the registers -/

theorem operand_eq_sp_iff {a : Byte} (ha : a.toNat < 8) : (⟨a.toNat, ha⟩ : RegIndex) = Config.spIndex ↔ a = 7 := by
  rw [Fin.ext_iff, BitVec.toNat_eq]
  rfl

@[simp] theorem advance_sp (s : State) (n : Nat) : (s.advance n).sp = s.sp := rfl
@[simp] theorem setPc_sp (s : State) (target : Byte) : (s.setPc target).sp = s.sp := rfl

theorem sp_toNat_ne_zero {s : State} (h : s.sp ≠ 0) : s.sp.toNat ≠ 0 :=
  fun e => h (BitVec.eq_of_toNat_eq e)

/-- Above 0 the decrement does not wrap. -/
theorem sp_sub_one_toNat {s : State} (h : s.sp ≠ 0) : (s.sp - 1).toNat = s.sp.toNat - 1 := by
  have hs := sp_toNat_ne_zero h
  bv_omega

theorem mask8_sp_sub_one {s : State} (h : s.sp ≠ 0) : mask8 ((s.sp.toNat - 1 : Nat) : Int) = s.sp - 1 := by
  rw [← sp_sub_one_toNat h, mask8_natCast_byte]

theorem readReg_setSp_ne (s : State) (v : Int) {j : RegIndex} (h : j ≠ Config.spIndex) :
    (s.setSp v).readReg j = s.readReg j :=
  readReg_writeReg_ne s v h.symm

theorem readReg_incSp_ne (s : State) {j : RegIndex} (h : j ≠ Config.spIndex) : s.incSp.readReg j = s.readReg j :=
  readReg_setSp_ne s _ h

/-! ### A push -/

theorem pushed_sp {s : State} (v : Byte) (h : s.sp ≠ 0) : (s.pushed v).sp = s.sp - 1 := by
  rw [State.sp, pushed_readReg, ← State.sp, setSp_sp, mask8_sp_sub_one h]

/-- What a register operand reads after the decrement (D8). -/
theorem readReg_pushed {s : State} (v : Byte) (h : s.sp ≠ 0) {a : Byte} (ha : a.toNat < 8) :
    (s.pushed v).readReg ⟨a.toNat, ha⟩ = if a = 7 then s.sp - 1 else s.readReg ⟨a.toNat, ha⟩ := by
  split
  next h7 => rw [(operand_eq_sp_iff ha).mpr h7, ← State.sp, pushed_sp v h]
  next h7 => exact readReg_setSp_ne s _ (mt (operand_eq_sp_iff ha).mp h7)

theorem read_pushed {s : State} (v : Byte) (hm : s.mem.wf = true) : (s.pushed v).mem.read (s.sp.toNat - 1) = v := by
  rw [pushed_mem, read_write hm, if_pos rfl]

theorem frame_pushed (s : State) (v : Byte) :
    Frame { regs := [Config.spIndex], cells := [s.sp.toNat - 1] } s (s.pushed v) := by
  refine ⟨fun j hj => ?_, fun a ha => ?_, rfl, fun _ => rfl, fun _ => rfl, fun _ => rfl⟩
  · exact readReg_setSp_ne s _ (List.ne_of_not_mem_cons hj)
  · exact read_write_ne s.mem (Ne.symm (List.ne_of_not_mem_cons ha))

/-- Settles O15: a push of the operand as it reads after the decrement, and the default advance. -/
theorem pushStoresBelowTheStackPointer : Obligations.PushStoresBelowTheStackPointer := by
  intro s a ha hm hs
  refine ⟨_, execPush_ok ha (sp_toNat_ne_zero hs), ?_, ?_, rfl, (frame_pushed s _).advance 1⟩
  · rw [advance_sp, pushed_sp _ hs, sp_sub_one_toNat hs]
  · rw [advance_mem, read_pushed _ hm, ← pushed_readReg s 0, readReg_pushed 0 hs]

/-- Settles O17: a push of the return address, which fits in a byte, and a jump to the operand as it reads after it. -/
theorem callPushesTheReturnAddress : Obligations.CallPushesTheReturnAddress := by
  intro s a ha hm hp hs
  refine ⟨_, execCall_ok ha hp (sp_toNat_ne_zero hs), ?_, ?_, ?_, (frame_pushed s _).setPc _⟩
  · rw [setPc_sp, pushed_sp _ hs, sp_sub_one_toNat hs]
  · rw [setPc_mem, read_pushed _ hm, BitVec.toNat_ofNat]
    omega
  · rw [setPc_pc, BitVec.toNat_setWidth_of_le (by decide), readReg_pushed _ hs, apply_ite BitVec.toNat,
      sp_sub_one_toNat hs]

/-! ### A pop -/

theorem sp_writeReg {s : State} {a : Byte} (ha : a.toNat < 8) (v : Byte) :
    (s.writeReg ⟨a.toNat, ha⟩ v.toNat).sp = if a = 7 then v else s.sp := by
  simp only [State.sp, readReg_writeReg, mask8_natCast_byte, operand_eq_sp_iff ha]

/-- Settles O16: the register write and then the increment, of the written value if the register is R7. -/
theorem popLoadsFromTheStackPointer : Obligations.PopLoadsFromTheStackPointer := by
  intro s a ha
  refine ⟨_, execPop_ok ha, ?_, fun h7 => ?_, rfl, fun j hj => ?_, fun _ _ => rfl, rfl, fun _ => rfl, fun _ => rfl,
    fun _ => rfl⟩
  · rw [advance_sp, incSp_sp, sp_writeReg ha]
    split <;> rfl
  · rw [advance_readReg, readReg_incSp_ne _ (mt (operand_eq_sp_iff ha).mp h7), readReg_writeReg_same,
      mask8_natCast_byte]
  · simp only [List.mem_cons, List.not_mem_nil, or_false, not_or] at hj
    rw [advance_readReg, readReg_incSp_ne _ hj.2, readReg_writeReg_ne s _ (Ne.symm hj.1)]

/-- Settles O18: the increment, and the jump to the byte popped. -/
theorem retPopsThePc : Obligations.RetPopsThePc := by
  intro s
  refine ⟨_, execRet_ok s, ?_, incSp_sp s, fun j hj => ?_, fun _ _ => rfl, rfl, fun _ => rfl, fun _ => rfl,
    fun _ => rfl⟩
  · rw [setPc_pc, BitVec.toNat_setWidth_of_le (by decide)]
  · exact readReg_incSp_ne s (List.ne_of_not_mem_cons hj)

/-! ### A push and its pop -/

/-- The increment of a pop undoes the decrement of a push. -/
theorem add_one_of_decremented {s t : State} (hs : s.sp ≠ 0) (ht : t.sp.toNat = s.sp.toNat - 1) : t.sp + 1 = s.sp := by
  have hne := sp_toNat_ne_zero hs
  bv_omega

/-- Settles O19: POP reads the cell that PUSH wrote, and the increment undoes the decrement. -/
theorem pushThenPopMovesARegister : Obligations.PushThenPopMovesARegister := by
  intro s a b ha hb hm hs
  have hb7 : b ≠ 7 := fun h => by simp [h] at hb
  have ha7 : a ≠ 7 := fun h => by simp [h] at ha
  obtain ⟨t, ht, htsp, htcell, htpc, htregs, htmem, htir, htfl, htrun, htout⟩ :=
    pushStoresBelowTheStackPointer s a (by omega) hm hs
  obtain ⟨u, hu, husp, hureg, hupc, huregs, humem, huir, hufl, hurun, huout⟩ :=
    popLoadsFromTheStackPointer t b (by omega)
  have hsp : u.sp = s.sp := by rw [husp, if_neg hb7, add_one_of_decremented hs htsp]
  refine ⟨t, u, ht, hu, ?_, hsp, ?_, fun j hj => ?_, fun x hx => ?_, huir.trans htir, fun h => (hufl h).trans (htfl h),
    fun h => (hurun h).trans (htrun h), fun h => (huout h).trans (htout h)⟩
  · rw [hureg hb7, htsp, htcell, if_neg ha7]
  · rw [hupc, htpc, BitVec.add_assoc]
    rfl
  · by_cases hj7 : j = Config.spIndex
    · exact hj7 ▸ hsp
    · have hjb := List.ne_of_not_mem_cons hj
      rw [huregs j (by simp [hjb, hj7]), htregs j (by simp [hj7])]
  · rw [humem x List.not_mem_nil, htmem x hx]

/-- Settles O20: RET pops the cell that CALL wrote, as the subroutine left it, and undoes the decrement. -/
theorem callThenRetReturns : Obligations.CallThenRetReturns := by
  intro s a ha hm hp hs
  obtain ⟨t, ht, htsp, htcell, -, -⟩ := callPushesTheReturnAddress s a ha hm hp hs
  refine ⟨t, ht, fun u hsp hcell => ?_⟩
  obtain ⟨v, hv, hvpc, hvsp, -⟩ := retPopsThePc u
  refine ⟨v, hv, ?_, by rw [hvsp, hsp, add_one_of_decremented hs htsp]⟩
  rw [hvpc, hsp, hcell, htsp, htcell]

/-! ### Pushed code -/

/-- Settles O42: PUSH advances to the cell it wrote, and the next fetch reads that cell. -/
theorem pushedCodeIsFetchedNext : Obligations.PushedCodeIsFetchedNext := by
  intro s t u a ha rest hm hd hcell h hu
  have hs : s.sp ≠ 0 := fun hz => by simp [hz] at hcell
  have ha7 : a ≠ 7 := fun h => by simp [h] at ha
  obtain ⟨t', ht', -, htcell, htpc, -⟩ := pushStoresBelowTheStackPointer s.fetched a (by omega) hm hs
  rw [step_of_decode_ok (run_of_step_next h) hd, ht'] at h
  cases h
  have hpc : t.pc.toNat = s.pc.toNat + 2 := by
    rw [htpc]
    exact advance_pc_toNat s (n := 1) (by omega)
  rw [step_ir_of_pc_le (by omega) hu, hpc, ← hcell]
  exact htcell.trans (if_neg ha7)

end Sys2Proof.Machine
end

section
/-! O10 (20_memory.md R30, R31). In canonical form the first listed cell is the lowest that differs from the reset
value, so memories that read alike list the same cells. -/

namespace Sys2Proof.Machine

theorem wfFrom_cons_iff {lo k : Nat} {v : Byte} {m : Memory} :
    Memory.wfFrom lo ((k, v) :: m) = true ↔ lo ≤ k ∧ k < 256 ∧ v ≠ Config.memReset ∧ m.wfFrom (k + 1) = true := by
  simp only [Memory.wfFrom, Bool.and_eq_true, decide_eq_true_eq, and_assoc]
  rfl

@[simp] theorem read_cons_same (k : Nat) (v : Byte) (m : Memory) : Memory.read ((k, v) :: m) k = v := if_pos rfl

theorem read_cons_ne {k a : Nat} (v : Byte) (m : Memory) (h : k ≠ a) : Memory.read ((k, v) :: m) a = m.read a :=
  if_neg h

/-- A memory that lists a cell at `k` differs there from one whose cells are all above `k`. -/
theorem not_read_alike {lo k : Nat} {v : Byte} {m m' : Memory} (hm : Memory.wfFrom lo ((k, v) :: m) = true)
    (hm' : m'.wfFrom (k + 1) = true) (h : ∀ a, a < 256 → Memory.read ((k, v) :: m) a = m'.read a) : False := by
  obtain ⟨-, hk, hv, -⟩ := wfFrom_cons_iff.mp hm
  have hread := h k hk
  rw [read_cons_same, read_of_wfFrom_lt hm' (Nat.lt_succ_self k)] at hread
  exact hv hread

theorem eq_of_read_alike {lo : Nat} {m m' : Memory} (hm : m.wfFrom lo = true) (hm' : m'.wfFrom lo = true)
    (h : ∀ a, a < 256 → m.read a = m'.read a) : m = m' := by
  induction m generalizing lo m' with
  | nil =>
    cases m' with
    | nil => rfl
    | cons c m' => exact (not_read_alike (m' := []) hm' rfl fun a ha => (h a ha).symm).elim
  | cons c m ih =>
    obtain ⟨k, v⟩ := c
    obtain ⟨hlo, hk, hv, hrest⟩ := wfFrom_cons_iff.mp hm
    cases m' with
    | nil => exact (not_read_alike hm rfl h).elim
    | cons c' m' =>
      obtain ⟨k', v'⟩ := c'
      obtain ⟨hlo', hk', hv', hrest'⟩ := wfFrom_cons_iff.mp hm'
      rcases Nat.lt_trichotomy k k' with hlt | rfl | hgt
      · exact (not_read_alike hm (wfFrom_cons_iff.mpr ⟨hlt, hk', hv', hrest'⟩) h).elim
      · have hvv : v = v' := by simpa using h k hk
        have htail : ∀ a, a < 256 → Memory.read m a = Memory.read m' a := by
          intro a ha
          by_cases hak : k = a
          · subst hak
            rw [read_of_wfFrom_lt hrest (Nat.lt_succ_self k), read_of_wfFrom_lt hrest' (Nat.lt_succ_self k)]
          · simpa [read_cons_ne _ _ hak] using h a ha
        rw [hvv, ih hrest hrest' htail]
      · exact (not_read_alike hm' (wfFrom_cons_iff.mpr ⟨hgt, hk, hv, hrest⟩) fun a ha => (h a ha).symm).elim

/-- Settles O10: canonical memories from address 0. -/
theorem canonicalMemoriesThatReadAlikeAreEqual : Obligations.CanonicalMemoriesThatReadAlikeAreEqual :=
  fun _ _ => eq_of_read_alike

end Sys2Proof.Machine
end

section
/-! O39, O55 to O57, O59 (60_exceptions.md R114, R123, 70_reset_and_hazards.md R130 to R139). The fault record, reset,
the host's load, and runs that halt. -/

namespace Sys2Proof.Machine

/-- Settles O39: the tables of the record's fields, and the final state of a fault just taken. -/
theorem faultRecordFields : Obligations.FaultRecordFields :=
  fun _ _ _ _ _ _ => ⟨rfl, rfl, rfl, rfl, rfl, rfl, rfl, rfl, rfl, rfl, rfl, rfl, rfl⟩

theorem reset_readReg {j : RegIndex} (hj : j ≠ Config.spIndex) : State.reset.readReg j = 0 := by
  revert j
  decide

/-- Settles O55: the reset state by its fields. -/
theorem resetState : Obligations.ResetState :=
  ⟨rfl, rfl, rfl, fun _ hj => reset_readReg hj, rfl, rfl, fun _ => rfl, rfl, rfl⟩

/-- Settles O56: byte 0 has no entry, so the step at reset takes that fault. -/
theorem emptyMemoryFaultsAtOnce : Obligations.EmptyMemoryFaultsAtOnce :=
  step_of_lookup_none (s := State.reset) rfl (by decide) rfl

/-- A copy from address 0 reads as the image, and as before past its end. -/
theorem read_writeBytes_zero {m : Memory} {bytes : List Byte} (hm : m.wf = true) (hlen : bytes.length ≤ 256) (a : Nat) :
    (m.writeBytes Config.loadBase bytes).read a = bytes.getD a (m.read a) := by
  rw [read_writeBytes hm (by simpa [Config.loadBase, Config.memSize] using hlen)]
  by_cases ha : a < bytes.length <;> simp [Config.loadBase, ha, List.getD]

/-- Settles O57: on a running machine `load` is a copy into memory or the refusal of a long image. -/
theorem loadCopiesTheImage : Obligations.LoadCopiesTheImage := by
  refine fun s bytes => ⟨fun hs hm => ?_, fun hs => load_of_not_running hs bytes⟩
  rw [load_running hs]
  refine ⟨fun hlen => ⟨_, if_pos hlen, rfl, writeBytes_wf hm ?_, read_writeBytes_zero hm hlen⟩, fun hlen => ?_⟩
  · simpa [Config.loadBase, Config.memSize] using hlen
  · exact if_neg (Nat.not_le_of_lt hlen)

/-- Settles O59: a FAULTED turn would be the end of the run, and that end is HALTED. -/
theorem cleanHaltNeverFaulted : Obligations.CleanHaltNeverFaulted := by
  rintro s ⟨t, ht, hhalt⟩ n r hr
  have hend : s.runFor n = t := ht.runFor_eq (by rw [hr]; exact RunState.noConfusion)
  rw [hend, hhalt] at hr
  cases hr

end Sys2Proof.Machine
end

section
/-! O46, O51 (10_state.md R20, R26, R27). Two runs that begin with other flags and another trace. As long as no jump
tests the flags, registers, PC, memory and run state go alike, both traces get the same events, and both runs keep their
flags or both get those of CMP; IR is the fetch's own. -/

namespace Sys2Proof.Machine

/-- A state with other flags and another trace. -/
def State.withFlOut (s : State) (f : Byte) (o : List OutEvent) : State := { s with fl := f, out := o }

theorem returnAddress_withFlOut (s : State) (f : Byte) (o : List OutEvent) (n : Nat) :
    (s.withFlOut f o).returnAddress n = s.returnAddress n := rfl

/-- Beside a run from `s` that answers `r`, the run with flags `f` and trace `o` answers `r'`: the same next state, with
the same new events on its own trace, and with the same flags or, if the first run kept its flags, with `f`. -/
def GoesAlike (f : Byte) (o : List OutEvent) (s : State) (r r' : Host.Outcome State Fault Refusal) : Prop :=
  ∃ t g es, r = .next t ∧ r' = .next (t.withFlOut g (o ++ es)) ∧ t.out = s.out ++ es ∧
    (g = t.fl ∨ (g = f ∧ t.fl = s.fl))

section
variable {s : State} {a b f : Byte} {o : List OutEvent}

/-- Where neither flags nor trace are written, both runs keep their own. -/
theorem goesAlike_of_kept {u : State} (hfl : u.fl = s.fl) (hout : u.out = s.out) :
    GoesAlike f o s (.next u) (.next (u.withFlOut f o)) :=
  ⟨u, f, [], rfl, by rw [List.append_nil], by rw [hout, List.append_nil], .inr ⟨rfl, hfl⟩⟩

/-- The check of a register operand comes out the same. -/
theorem checkReg_goesAlike {x x' : RegIndex → Except FaultCause State}
    (h : ∀ j, GoesAlike f o s (s.complete (x j)) ((s.withFlOut f o).complete (x' j))) :
    GoesAlike f o s (s.complete (checkReg a >>= x)) ((s.withFlOut f o).complete (checkReg a >>= x')) := by
  cases checkReg a with
  | error c => exact goesAlike_of_kept rfl rfl
  | ok j => exact h j

/-- What the ALU gave is written back in both runs: a result into the register, an outcome into the flags. -/
theorem writeBack_goesAlike (j : RegIndex) (n : Nat) (r : Except FaultCause AluOut) :
    GoesAlike f o s (s.complete (r >>= fun x => .ok ((s.writeBack j x).advance n)))
      ((s.withFlOut f o).complete (r >>= fun x => .ok (((s.withFlOut f o).writeBack j x).advance n))) := by
  rcases r with c | x | outcome
  · exact goesAlike_of_kept rfl rfl
  · exact goesAlike_of_kept rfl rfl
  · exact ⟨_, outcome.flags, [], rfl, by rw [List.append_nil]; rfl, (List.append_nil _).symm, .inl rfl⟩

/-- A push, of a value that does not depend on flags or trace, before updates `k` that keep them. -/
theorem push_goesAlike {v : State → Byte} (hv : ∀ u, v (State.withFlOut u f o) = v u) {k : State → State}
    (hk : ∀ u, k (State.withFlOut u f o) = (k u).withFlOut f o ∧ (k u).fl = u.fl ∧ (k u).out = u.out) :
    GoesAlike f o s (s.complete (s.push v >>= fun u => .ok (k u)))
      ((s.withFlOut f o).complete ((s.withFlOut f o).push v >>= fun u => .ok (k u))) := by
  by_cases hs : s.sp.toNat = 0
  · rw [push_error _ hs, push_error _ (by exact hs)]
    exact goesAlike_of_kept rfl rfl
  · have hpush : s.push v = .ok (s.pushed (v (s.setSp ((s.sp.toNat - 1 : Nat) : Int)))) := push_ok v hs
    have hpush' : (s.withFlOut f o).push v =
        .ok ((s.pushed (v ((s.setSp ((s.sp.toNat - 1 : Nat) : Int)).withFlOut f o))).withFlOut f o) := push_ok v hs
    obtain ⟨hmove, hfl, hout⟩ := hk (s.pushed (v (s.setSp ((s.sp.toNat - 1 : Nat) : Int))))
    rw [hpush', hpush, hv, ok_bind, ok_bind, hmove]
    exact goesAlike_of_kept hfl hout

theorem jumpIf_goesAlike (taken : Bool) : GoesAlike f o s (jumpIf taken a s) (jumpIf taken a (s.withFlOut f o)) := by
  refine checkReg_goesAlike fun j => ?_
  cases taken <;> exact goesAlike_of_kept rfl rfl

theorem emitReg_goesAlike (event : Byte → OutEvent) :
    GoesAlike f o s (emitReg event a s) (emitReg event a (s.withFlOut f o)) :=
  checkReg_goesAlike fun j => ⟨_, f, [event (s.readReg j)], rfl, rfl, rfl, .inr ⟨rfl, rfl⟩⟩

theorem aluBinary_goesAlike (op : AluOp) : GoesAlike f o s (aluBinary op a b s) (aluBinary op a b (s.withFlOut f o)) :=
  checkReg_goesAlike fun j => checkReg_goesAlike fun _ => writeBack_goesAlike j 2 _

theorem aluUnary_goesAlike (op : AluOp) : GoesAlike f o s (aluUnary op a s) (aluUnary op a (s.withFlOut f o)) :=
  checkReg_goesAlike fun j => writeBack_goesAlike j 1 _

theorem execLdi_goesAlike (imm : Byte) : GoesAlike f o s (execLdi a imm s) (execLdi a imm (s.withFlOut f o)) :=
  checkReg_goesAlike fun _ => goesAlike_of_kept rfl rfl

theorem execPush_goesAlike : GoesAlike f o s (execPush a s) (execPush a (s.withFlOut f o)) :=
  checkReg_goesAlike fun _ => push_goesAlike (fun _ => rfl) fun _ => ⟨rfl, rfl, rfl⟩

theorem execCall_goesAlike : GoesAlike f o s (execCall a s) (execCall a (s.withFlOut f o)) := by
  refine checkReg_goesAlike fun j => ?_
  rw [returnAddress_withFlOut]
  cases s.returnAddress 1 with
  | error c => exact goesAlike_of_kept rfl rfl
  | ok ret => exact push_goesAlike (fun _ => rfl) fun _ => ⟨rfl, rfl, rfl⟩

theorem execPop_goesAlike : GoesAlike f o s (execPop a s) (execPop a (s.withFlOut f o)) := by
  refine checkReg_goesAlike fun j => ?_
  rw [memRead_sp, memRead_sp]
  exact goesAlike_of_kept rfl rfl

theorem execRet_goesAlike : GoesAlike f o s (execRet s) (execRet (s.withFlOut f o)) := by
  rw [execRet_ok, execRet_ok]
  exact goesAlike_of_kept rfl rfl

end

/-- Every instruction goes alike in both runs, unless it is a conditional jump and the flags differ. -/
theorem exec_goesAlike {i : Instr} {s : State} {f : Byte} (o : List OutEvent)
    (hf : isConditionalJump i = false ∨ f = s.fl) : GoesAlike f o s (exec i s) (exec i (s.withFlOut f o)) := by
  cases i with
  | hlt => exact goesAlike_of_kept rfl rfl
  | ldi a imm => exact execLdi_goesAlike imm
  | prn a | pra a => exact emitReg_goesAlike _
  | push a => exact execPush_goesAlike
  | pop a => exact execPop_goesAlike
  | call a => exact execCall_goesAlike
  | ret => exact execRet_goesAlike
  | jmp a => exact jumpIf_goesAlike true
  | jeq a | jne a | jgt a | jlt a | jle a | jge a =>
    rcases hf with hf | rfl
    · cases hf
    · exact jumpIf_goesAlike _
  | inc a | dec a | not a => exact aluUnary_goesAlike _
  | cmp a b | add a b | sub a b | mul a b | div a b | mod a b | and a b | or a b | xor a b | shl a b | shr a b =>
    exact aluBinary_goesAlike _

/-- Settles O46: the second run has other flags only. -/
theorem onlyConditionalJumpsReadFlags : Obligations.OnlyConditionalJumpsReadFlags := by
  intro i s t f hi h
  obtain ⟨t', g, es, ht, hr, hout, hg⟩ := exec_goesAlike (i := i) (s := s) (f := f) s.out (.inl hi)
  rw [h] at ht
  cases ht
  rw [← hout] at hr
  exact ⟨_, hr, rfl, hg⟩

/-- Settles O51: the fetch does not read the trace and writes IR anew; then the second run has another trace only. -/
theorem traceAndOldIrAreNeverRead : Obligations.TraceAndOldIrAreNeverRead := by
  intro s t o x hp h
  have hs : s.run = .running := run_of_step_next h
  have hfetched : ({ s with out := o, ir := x } : State).fetched = s.fetched.withFlOut s.fl o := by
    rw [fetched_of_pc_le hp, fetched_of_pc_le (by exact hp)]
    rfl
  have hsteps : GoesAlike s.fl o s.fetched (step s) (step { s with out := o, ir := x }) := by
    rcases step_running_cases hs with ⟨c, hc, he⟩ | ⟨i, rest, hd, he⟩
    · rw [he, step_of_stepFault (by exact hs) (stepFault_of_decodeFault (by exact hc)), hfetched]
      exact goesAlike_of_kept rfl rfl
    · rw [he, step_of_decode_ok (by exact hs) (by exact hd), hfetched]
      exact exec_goesAlike o (.inr rfl)
  obtain ⟨t', g, es, ht, hr, hout, hg⟩ := hsteps
  rw [h] at ht
  cases ht
  have hfl : g = t.fl := hg.elim id fun ⟨hgf, htf⟩ => hgf.trans htf.symm
  exact ⟨es, hout, by rw [hr, hfl]; rfl⟩

end Sys2Proof.Machine
end
